-- ==== Sys2Proof/Word.lean ====
section
/-! DEFINITION. The word type of the FXU and the number of a data register.

Every register, constant and result word is 32 bits wide (00_scope.md R8); a data register is numbered 0 to 15
(10_state.md R20). -/

namespace Sys2Proof

/-- A 32-bit word: a data register's contents, a command word, a control register (00_scope.md R2, R8). -/
abbrev Word := BitVec 32

/-- A byte lane of the host's data bus (20_memory.md R56). -/
abbrev Byte := BitVec 8

/-- The number of a data register, a 4-bit field of the command word (10_state.md R20, 30_encoding.md R71). -/
abbrev Reg := Fin 16

end Sys2Proof
end

