-- ==== Sys2Proof/Syntax.lean ====
section
/-! DEFINITION. The commands of the FXU, one constructor per row of spec/opcode_table.json (30_encoding.md R74).

Operands stand in the order of the assembler syntax of R78: destination first, then the sources in field order, then the
immediate. SHAMT is a count (R73) and so a natural number, bounded by WellFormed; KIDX is an index of the eight-word
constant ROM. -/

namespace Sys2Proof

/-- A command of the FXU (30_encoding.md R74). -/
inductive Instr where
  /-- 40_alu.md R125 -/
  | nop
  /-- 40_alu.md R101 -/
  | add (rd rs1 rs2 : Reg)
  /-- 40_alu.md R103 -/
  | sub (rd rs1 rs2 : Reg)
  /-- 40_alu.md R105 -/
  | mul (rd rs1 rs2 : Reg)
  /-- 40_alu.md R107 -/
  | div (rd rs1 rs2 : Reg)
  /-- 40_alu.md R111 -/
  | mod (rd rs1 rs2 : Reg)
  /-- 40_alu.md R109 -/
  | sdiv (rd rs1 rs2 : Reg)
  /-- 40_alu.md R113 -/
  | neg (rd rs1 : Reg)
  /-- 40_alu.md R115 -/
  | inc (rd rs1 : Reg)
  /-- 40_alu.md R116 -/
  | dec (rd rs1 : Reg)
  /-- 40_alu.md R118 -/
  | shli (rd rs1 : Reg) (shamt : Nat)
  /-- 40_alu.md R119 -/
  | shri (rd rs1 : Reg) (shamt : Nat)
  /-- 40_alu.md R122 -/
  | cmp (rs1 rs2 : Reg)
  /-- 40_alu.md R123 -/
  | mov (rd rs1 : Reg)
  /-- 40_alu.md R124 -/
  | ldc (rd : Reg) (kidx : Fin 8)
  /-- 41_convert.md R140 -/
  | itox (rd rs1 : Reg)
  /-- 41_convert.md R141 -/
  | xtoi (rd rs1 : Reg)
  /-- 41_convert.md R143 -/
  | ftox (rd rs1 : Reg)
  /-- 41_convert.md R144 -/
  | xtof (rd rs1 : Reg)
  /-- 42_aux.md R150 -/
  | abs (rd rs1 : Reg)
  /-- 42_aux.md R151 -/
  | sign (rd rs1 : Reg)
  /-- 42_aux.md R152 -/
  | floor (rd rs1 : Reg)
  /-- 42_aux.md R154 -/
  | ceil (rd rs1 : Reg)
  /-- 42_aux.md R155 -/
  | round (rd rs1 : Reg)
  /-- 42_aux.md R156 -/
  | min (rd rs1 rs2 : Reg)
  /-- 42_aux.md R157 -/
  | max (rd rs1 rs2 : Reg)
  /-- 42_aux.md R158: x is rs1, lo is rs2, hi is rs3 -/
  | clamp (rd rs1 rs2 rs3 : Reg)
  /-- 43_sqrt.md R171 -/
  | sqrt (rd rs1 : Reg)
  /-- 44_trig.md R182 -/
  | sin (rd rs1 : Reg)
  /-- 44_trig.md R183 -/
  | cos (rd rs1 : Reg)
  /-- 44_trig.md R184 -/
  | tan (rd rs1 : Reg)
  /-- 44_trig.md R187 -/
  | atan (rd rs1 : Reg)
  /-- 44_trig.md R189: y is rs1, x is rs2 -/
  | atan2 (rd rs1 rs2 : Reg)
  /-- 45_invtrig.md R200 -/
  | asin (rd rs1 : Reg)
  /-- 45_invtrig.md R203 -/
  | acos (rd rs1 : Reg)
  deriving DecidableEq, Repr

end Sys2Proof
end

