-- ==== Sys2Proof/WellFormed.lean ====
section
/-! DEFINITION. Which commands an encoding can spell.

A register operand is any of the 16 numbers and KIDX any of the 8 indices (30_encoding.md R73), which their types say.
SHAMT is 0 to 31, since IMM8[7:5] must be zero (R72, R75). -/

namespace Sys2Proof

/-- SHAMT is a 5-bit count (30_encoding.md R73). -/
def shamtInRange (shamt : Nat) : Bool := shamt < 32

/-- The immediates of the command are ones a command word can hold. -/
def Instr.wellFormed : Instr → Bool
  | .shli _ _ shamt => shamtInRange shamt
  | .shri _ _ shamt => shamtInRange shamt
  | .nop => true
  | .add _ _ _ => true
  | .sub _ _ _ => true
  | .mul _ _ _ => true
  | .div _ _ _ => true
  | .mod _ _ _ => true
  | .sdiv _ _ _ => true
  | .neg _ _ => true
  | .inc _ _ => true
  | .dec _ _ => true
  | .cmp _ _ => true
  | .mov _ _ => true
  | .ldc _ _ => true
  | .itox _ _ => true
  | .xtoi _ _ => true
  | .ftox _ _ => true
  | .xtof _ _ => true
  | .abs _ _ => true
  | .sign _ _ => true
  | .floor _ _ => true
  | .ceil _ _ => true
  | .round _ _ => true
  | .min _ _ _ => true
  | .max _ _ _ => true
  | .clamp _ _ _ _ => true
  | .sqrt _ _ => true
  | .sin _ _ => true
  | .cos _ _ => true
  | .tan _ _ => true
  | .atan _ _ => true
  | .atan2 _ _ _ => true
  | .asin _ _ => true
  | .acos _ _ => true

end Sys2Proof
end

