-- ==== Sys2Proof/Decode.lean ====
section
/-! DEFINITION. The command word's decoder, total on all 2^32 words, and its encoder (30_encoding.md R70-R77). -/

namespace Sys2Proof

/-- Why a word is no command; either way the FXU raises ILLEGAL_COMMAND (30_encoding.md R75, R76). -/
inductive DecodeError where
  /-- the OP value is not in the map of R74 (R76) -/
  | reservedOpcode (op : BitVec 8)
  /-- the OP is defined, and a field its format does not use is not zero (R75) -/
  | reservedFieldNotZero (op : BitVec 8)
  deriving DecidableEq, Repr

/-- The formats of 30_encoding.md R72: which fields a command uses. -/
inductive Format where
  | fn | f2r | f3r | f4r | fri | fk | fc
  deriving DecidableEq, Repr

/-- The bits fixed by the opcode and the zero fields (30_encoding.md R72). -/
def Format.mask : Format → Word
  | .fn  => 0xFFFFFFFF#32
  | .f2r => 0xFFFF00FF#32
  | .f3r => 0xFFF000FF#32
  | .f4r => 0xFF0000FF#32
  | .fri => 0xE0FF00FF#32
  | .fk  => 0xF8FFF0FF#32
  | .fc  => 0xFFF00FFF#32

/-- The fields of a command word above OP (30_encoding.md R71). -/
structure Fields where
  rd   : Reg
  rs1  : Reg
  rs2  : Reg
  rs3  : Reg
  imm8 : BitVec 8
  deriving DecidableEq, Repr

/-- OP, bits 7:0 (30_encoding.md R71). -/
def opOf (w : Word) : BitVec 8 := w.extractLsb' 0 8

/-- The fields above OP, each at its place (30_encoding.md R71). -/
def fieldsOf (w : Word) : Fields where
  rd   := (w.extractLsb' 8 4).toFin
  rs1  := (w.extractLsb' 12 4).toFin
  rs2  := (w.extractLsb' 16 4).toFin
  rs3  := (w.extractLsb' 20 4).toFin
  imm8 := w.extractLsb' 24 8

/-- SHAMT = zext_5(w[28:24]) (30_encoding.md R73). -/
def Fields.shamt (f : Fields) : Nat := (f.imm8.extractLsb' 0 5).toNat

/-- KIDX = zext_3(w[26:24]) (30_encoding.md R73). -/
def Fields.kidx (f : Fields) : Fin 8 := (f.imm8.extractLsb' 0 3).toFin

/-- The word with these fields and this OP, in the layout of 30_encoding.md R71. -/
def layout (f : Fields) (op : BitVec 8) : Word :=
  f.imm8 ++ (BitVec.ofFin (w := 4) f.rs3 ++ (BitVec.ofFin (w := 4) f.rs2 ++ (BitVec.ofFin (w := 4) f.rs1 ++
    (BitVec.ofFin (w := 4) f.rd ++ op))))

/-- A row of the opcode map: its format, and the command its operand fields make. -/
structure Row where
  format : Format
  build  : Fields → Instr

/-- The opcode map of 30_encoding.md R74; none for a reserved OP (R76). -/
def rowOf (op : BitVec 8) : Option Row :=
  match op.toNat with
  | 0x00 => some ⟨.fn,  fun _ => .nop⟩
  | 0x01 => some ⟨.f3r, fun f => .add f.rd f.rs1 f.rs2⟩
  | 0x02 => some ⟨.f3r, fun f => .sub f.rd f.rs1 f.rs2⟩
  | 0x03 => some ⟨.f3r, fun f => .mul f.rd f.rs1 f.rs2⟩
  | 0x04 => some ⟨.f3r, fun f => .div f.rd f.rs1 f.rs2⟩
  | 0x05 => some ⟨.f3r, fun f => .mod f.rd f.rs1 f.rs2⟩
  | 0x06 => some ⟨.f3r, fun f => .sdiv f.rd f.rs1 f.rs2⟩
  | 0x07 => some ⟨.f2r, fun f => .neg f.rd f.rs1⟩
  | 0x08 => some ⟨.f2r, fun f => .inc f.rd f.rs1⟩
  | 0x09 => some ⟨.f2r, fun f => .dec f.rd f.rs1⟩
  | 0x0A => some ⟨.fri, fun f => .shli f.rd f.rs1 f.shamt⟩
  | 0x0B => some ⟨.fri, fun f => .shri f.rd f.rs1 f.shamt⟩
  | 0x0C => some ⟨.fc,  fun f => .cmp f.rs1 f.rs2⟩
  | 0x0D => some ⟨.f2r, fun f => .mov f.rd f.rs1⟩
  | 0x0E => some ⟨.fk,  fun f => .ldc f.rd f.kidx⟩
  | 0x10 => some ⟨.f2r, fun f => .itox f.rd f.rs1⟩
  | 0x11 => some ⟨.f2r, fun f => .xtoi f.rd f.rs1⟩
  | 0x12 => some ⟨.f2r, fun f => .ftox f.rd f.rs1⟩
  | 0x13 => some ⟨.f2r, fun f => .xtof f.rd f.rs1⟩
  | 0x20 => some ⟨.f2r, fun f => .abs f.rd f.rs1⟩
  | 0x21 => some ⟨.f2r, fun f => .sign f.rd f.rs1⟩
  | 0x22 => some ⟨.f2r, fun f => .floor f.rd f.rs1⟩
  | 0x23 => some ⟨.f2r, fun f => .ceil f.rd f.rs1⟩
  | 0x24 => some ⟨.f2r, fun f => .round f.rd f.rs1⟩
  | 0x25 => some ⟨.f3r, fun f => .min f.rd f.rs1 f.rs2⟩
  | 0x26 => some ⟨.f3r, fun f => .max f.rd f.rs1 f.rs2⟩
  | 0x27 => some ⟨.f4r, fun f => .clamp f.rd f.rs1 f.rs2 f.rs3⟩
  | 0x30 => some ⟨.f2r, fun f => .sqrt f.rd f.rs1⟩
  | 0x40 => some ⟨.f2r, fun f => .sin f.rd f.rs1⟩
  | 0x41 => some ⟨.f2r, fun f => .cos f.rd f.rs1⟩
  | 0x42 => some ⟨.f2r, fun f => .tan f.rd f.rs1⟩
  | 0x43 => some ⟨.f2r, fun f => .atan f.rd f.rs1⟩
  | 0x44 => some ⟨.f3r, fun f => .atan2 f.rd f.rs1 f.rs2⟩
  | 0x48 => some ⟨.f2r, fun f => .asin f.rd f.rs1⟩
  | 0x49 => some ⟨.f2r, fun f => .acos f.rd f.rs1⟩
  | _ => none

/-- `match(r)`: OP in bits 7:0 and zero elsewhere (30_encoding.md R74). -/
def matchOf (op : BitVec 8) : Word := op.setWidth 32

/-- The decode of a command word (30_encoding.md R77). -/
def decode (w : Word) : Except DecodeError Instr :=
  match rowOf (opOf w) with
  | none => .error (.reservedOpcode (opOf w))
  | some r =>
    if w &&& r.format.mask ≠ matchOf (opOf w) then .error (.reservedFieldNotZero (opOf w))
    else .ok (r.build (fieldsOf w))

/-! ### The encoder -/

/-- The OP value of a command (30_encoding.md R74). -/
def Instr.opcode : Instr → BitVec 8
  | .nop => 0x00#8
  | .add _ _ _ => 0x01#8
  | .sub _ _ _ => 0x02#8
  | .mul _ _ _ => 0x03#8
  | .div _ _ _ => 0x04#8
  | .mod _ _ _ => 0x05#8
  | .sdiv _ _ _ => 0x06#8
  | .neg _ _ => 0x07#8
  | .inc _ _ => 0x08#8
  | .dec _ _ => 0x09#8
  | .shli _ _ _ => 0x0A#8
  | .shri _ _ _ => 0x0B#8
  | .cmp _ _ => 0x0C#8
  | .mov _ _ => 0x0D#8
  | .ldc _ _ => 0x0E#8
  | .itox _ _ => 0x10#8
  | .xtoi _ _ => 0x11#8
  | .ftox _ _ => 0x12#8
  | .xtof _ _ => 0x13#8
  | .abs _ _ => 0x20#8
  | .sign _ _ => 0x21#8
  | .floor _ _ => 0x22#8
  | .ceil _ _ => 0x23#8
  | .round _ _ => 0x24#8
  | .min _ _ _ => 0x25#8
  | .max _ _ _ => 0x26#8
  | .clamp _ _ _ _ => 0x27#8
  | .sqrt _ _ => 0x30#8
  | .sin _ _ => 0x40#8
  | .cos _ _ => 0x41#8
  | .tan _ _ => 0x42#8
  | .atan _ _ => 0x43#8
  | .atan2 _ _ _ => 0x44#8
  | .asin _ _ => 0x48#8
  | .acos _ _ => 0x49#8

/-- The format of a command (30_encoding.md R74). -/
def Instr.format : Instr → Format
  | .nop => .fn
  | .add _ _ _ => .f3r
  | .sub _ _ _ => .f3r
  | .mul _ _ _ => .f3r
  | .div _ _ _ => .f3r
  | .mod _ _ _ => .f3r
  | .sdiv _ _ _ => .f3r
  | .neg _ _ => .f2r
  | .inc _ _ => .f2r
  | .dec _ _ => .f2r
  | .shli _ _ _ => .fri
  | .shri _ _ _ => .fri
  | .cmp _ _ => .fc
  | .mov _ _ => .f2r
  | .ldc _ _ => .fk
  | .itox _ _ => .f2r
  | .xtoi _ _ => .f2r
  | .ftox _ _ => .f2r
  | .xtof _ _ => .f2r
  | .abs _ _ => .f2r
  | .sign _ _ => .f2r
  | .floor _ _ => .f2r
  | .ceil _ _ => .f2r
  | .round _ _ => .f2r
  | .min _ _ _ => .f3r
  | .max _ _ _ => .f3r
  | .clamp _ _ _ _ => .f4r
  | .sqrt _ _ => .f2r
  | .sin _ _ => .f2r
  | .cos _ _ => .f2r
  | .tan _ _ => .f2r
  | .atan _ _ => .f2r
  | .atan2 _ _ _ => .f3r
  | .asin _ _ => .f2r
  | .acos _ _ => .f2r

/-- Fields of the two-register format: the rest zero (30_encoding.md R72, F2R). -/
def Fields.f2r (rd rs1 : Reg) : Fields := ⟨rd, rs1, 0, 0, 0#8⟩

/-- Fields of the three-register format (30_encoding.md R72, F3R). -/
def Fields.f3r (rd rs1 rs2 : Reg) : Fields := ⟨rd, rs1, rs2, 0, 0#8⟩

/-- The operand fields of a command; every field its format does not use is zero (30_encoding.md R72). -/
def Instr.fields : Instr → Fields
  | .nop => ⟨0, 0, 0, 0, 0#8⟩
  | .add rd rs1 rs2 => .f3r rd rs1 rs2
  | .sub rd rs1 rs2 => .f3r rd rs1 rs2
  | .mul rd rs1 rs2 => .f3r rd rs1 rs2
  | .div rd rs1 rs2 => .f3r rd rs1 rs2
  | .mod rd rs1 rs2 => .f3r rd rs1 rs2
  | .sdiv rd rs1 rs2 => .f3r rd rs1 rs2
  | .neg rd rs1 => .f2r rd rs1
  | .inc rd rs1 => .f2r rd rs1
  | .dec rd rs1 => .f2r rd rs1
  | .shli rd rs1 shamt => ⟨rd, rs1, 0, 0, BitVec.ofNat 8 shamt⟩
  | .shri rd rs1 shamt => ⟨rd, rs1, 0, 0, BitVec.ofNat 8 shamt⟩
  | .cmp rs1 rs2 => ⟨0, rs1, rs2, 0, 0#8⟩
  | .mov rd rs1 => .f2r rd rs1
  | .ldc rd kidx => ⟨rd, 0, 0, 0, BitVec.ofNat 8 kidx.val⟩
  | .itox rd rs1 => .f2r rd rs1
  | .xtoi rd rs1 => .f2r rd rs1
  | .ftox rd rs1 => .f2r rd rs1
  | .xtof rd rs1 => .f2r rd rs1
  | .abs rd rs1 => .f2r rd rs1
  | .sign rd rs1 => .f2r rd rs1
  | .floor rd rs1 => .f2r rd rs1
  | .ceil rd rs1 => .f2r rd rs1
  | .round rd rs1 => .f2r rd rs1
  | .min rd rs1 rs2 => .f3r rd rs1 rs2
  | .max rd rs1 rs2 => .f3r rd rs1 rs2
  | .clamp rd rs1 rs2 rs3 => ⟨rd, rs1, rs2, rs3, 0#8⟩
  | .sqrt rd rs1 => .f2r rd rs1
  | .sin rd rs1 => .f2r rd rs1
  | .cos rd rs1 => .f2r rd rs1
  | .tan rd rs1 => .f2r rd rs1
  | .atan rd rs1 => .f2r rd rs1
  | .atan2 rd rs1 rs2 => .f3r rd rs1 rs2
  | .asin rd rs1 => .f2r rd rs1
  | .acos rd rs1 => .f2r rd rs1

/-- The command word of a command (30_encoding.md R71, R72, R74). -/
def encode (i : Instr) : Word := layout i.fields i.opcode

/-- The command the decoder reads from a table row's word: the low `nbits` bits of `w`, the bits above them zero. A
command is one 32-bit word (30_encoding.md R70), so no longer row exists. -/
def decodeTableWord (nbits w : Nat) : Option Instr :=
  if nbits ≤ 32 then (decode (BitVec.ofNat 32 (w % 2 ^ nbits))).toOption else none

end Sys2Proof
end

