-- ==== Sys2Proof/Machine/State.lean ====
section
/-! DEFINITION. The state of the FXU (10_state.md R33) and what stands at its port, as plain data. -/

namespace Sys2Proof.Machine

/-- The three fault causes of the FXU (60_exceptions.md R210). They are latched in the state; none ends the run. -/
inductive Cause where
  /-- the result cannot be represented in the 32-bit raw range -/
  | overflow
  /-- the divisor is zero -/
  | divideByZero
  /-- a word the encoding leaves undefined -/
  | illegalCommand
  deriving DecidableEq, Repr

/-- The defined bits of STATUS (10_state.md R25). -/
inductive StatusBit where
  | fault | ovf | dz | ill | dom | drop | lt | eq | gt
  deriving DecidableEq, Repr

/-- The width of a host access (20_memory.md R51). -/
inductive AccessWidth where
  | byte | half | word | double
  deriving DecidableEq, Repr

/-- What a host access does. -/
inductive AccessOp where
  | read
  | write (data : Word)
  deriving DecidableEq, Repr

/-- One access of the host to the register window. The FXU decodes only the 8-bit offset (20_memory.md R50). -/
structure Access where
  width  : AccessWidth
  offset : BitVec 8
  op     : AccessOp
  deriving DecidableEq, Repr

/-- What the outside world does to the FXU: a host access (20_memory.md R51) or the assertion of the reset input
(70_reset_and_hazards.md R240). -/
inductive Input where
  | access (a : Access)
  | reset
  deriving DecidableEq, Repr

/-- What the port answers the host: the acknowledge of a write (20_memory.md R53), the data of a read (R52), or a bus
error (R51, R55). -/
inductive Answer where
  | ack
  | data (w : Word)
  | busError
  deriving DecidableEq, Repr

/-- The machine. The first five fields are the spec's (10_state.md R33); the last three are the model's own
(INVENTORY.md, State). -/
structure State where
  /-- F0 to F15 (10_state.md R20) -/
  f        : Vector Word 16
  /-- STATUS (10_state.md R25) -/
  status   : Word
  /-- CAUSE, bits 7:0 (10_state.md R27) -/
  cause    : BitVec 8
  /-- FAULTCMD (10_state.md R28) -/
  faultcmd : Word
  /-- CTRL.IRQEN (10_state.md R29) -/
  irqen    : Bool
  /-- DESIGN CHOICE (log entry 2, safe): how often the reset input was asserted in this run -/
  resets   : Nat
  /-- DESIGN CHOICE (log entry 3, safe): what the outside world does next, first thing first -/
  inputs   : List Input
  /-- DESIGN CHOICE (log entry 4, safe): the port's last answer -/
  answer   : Option Answer
  deriving DecidableEq, Repr

/-- Why the machine stops. The FXU's own faults are no stops: they are latched in the state (60_exceptions.md R212). -/
inductive Fault where
  /-- Raised by the port for a host access of another width than 32 bits, at an offset not a multiple of 4 or at a
  reserved offset: the host gets a bus error and the state stays; "in a model, such a host access has no meaning (model
  fault `BadHostAccess`, errs toward unprovable)" (20_memory.md R51, R55). Safe (log entry 5). -/
  | badHostAccess
  deriving DecidableEq, Repr

/-- Why the model has no meaning for an instruction. -/
inductive Refusal where
  /-- Raised by an arm of `exec` for an instruction that has no meaning yet; no arm of this model raises it. Safe. -/
  | notModelled (mnemonic : String)
  deriving DecidableEq, Repr

/-- The machine right after reset (70_reset_and_hazards.md R240, R241; 10_state.md R33): every control register 0.
The data registers, which the spec leaves unspecified, hold 0: DESIGN CHOICE (log entry 1, unsafe). -/
def State.reset : State where
  f        := Vector.replicate 16 0#32
  status   := 0#32
  cause    := 0#8
  faultcmd := 0#32
  irqen    := false
  resets   := 0
  inputs   := []
  answer   := none

end Sys2Proof.Machine
end

