-- ==== Sys2Proof/Machine/Flags.lean ====
section
/-! DEFINITION. The bits of STATUS and how they are read and written (10_state.md R24-R26). -/

namespace Sys2Proof.Machine

/-- The bit number of a STATUS field (10_state.md R25). -/
def StatusBit.pos : StatusBit → Nat
  | .fault => 0
  | .ovf => 1
  | .dz => 2
  | .ill => 3
  | .dom => 4
  | .drop => 5
  | .lt => 8
  | .eq => 9
  | .gt => 10

/-- The defined bits of STATUS; the others are reserved and read 0 (10_state.md R25). -/
def statusDefined : Word := 0x0000073F#32

/-- The bits of STATUS a host write of 1 clears (10_state.md R25, R26). -/
def statusClearable : Word := 0x0000003F#32

/-- A word with one bit set or cleared. -/
def withBit (w : Word) (n : Nat) (v : Bool) : Word :=
  if v then w ||| 1#32 <<< n else w &&& ~~~(1#32 <<< n)

/-- `STATUS.X` (00_scope.md R10). -/
def State.flag (s : State) (b : StatusBit) : Bool := s.status.getLsbD b.pos

/-- `STATUS.X <- v` (00_scope.md R10). -/
def State.setFlag (s : State) (b : StatusBit) (v : Bool) : State :=
  { s with status := withBit s.status b.pos v }

/-- Sets a sticky flag where the condition holds, and leaves it otherwise (43_sqrt.md R171, 45_invtrig.md R200). -/
def State.raiseFlag (s : State) (b : StatusBit) (condition : Bool) : State :=
  if condition then s.setFlag b true else s

/-- The flags CMP writes (40_alu.md R122). -/
def State.setCompare (s : State) (c : Ordering) : State :=
  ((s.setFlag .lt (c == .lt)).setFlag .eq (c == .eq)).setFlag .gt (c == .gt)

/-- STATUS as the host reads it: reserved bits read 0 (10_state.md R25). -/
def State.statusWord (s : State) : Word := s.status &&& statusDefined

/-- CAUSE as the host reads it: bits 31:8 read 0 (10_state.md R27). -/
def State.causeWord (s : State) : Word := s.cause.setWidth 32

/-- CTRL as the host reads it: bits 31:1 read 0 (10_state.md R29). -/
def State.ctrlWord (s : State) : Word := if s.irqen then 1#32 else 0#32

/-- The interrupt output, a level (60_exceptions.md R220). -/
def State.irq (s : State) : Bool := s.flag .fault && s.irqen

end Sys2Proof.Machine
end

