-- ==== Sys2Proof/Machine/Integers.lean ====
section
/-! DEFINITION. The conversions and integer primitives of the spec's notation (00_scope.md R8, R9).

Rules compute on unbounded integers; a value becomes a word only at the end. -/

namespace Sys2Proof.Machine

/-- The signed value of a word: `w - 2^32` when `w[31] = 1`, else `w` (00_scope.md R8). -/
def s32 (w : Word) : Int := w.toInt

/-- The 32-bit word `v mod 2^32` (00_scope.md R8). -/
def word (v : Int) : Word := BitVec.ofInt 32 v

/-- Whether a value is a signed 32-bit value (00_scope.md R8). -/
abbrev fits32 (v : Int) : Prop := -2 ^ 31 ≤ v ∧ v ≤ 2 ^ 31 - 1

/-- The value reduced into the signed 32-bit range modulo 2^32 (00_scope.md R8). -/
def wrap32 (v : Int) : Int := s32 (word v)

/-- Arithmetic shift right: `floor(v / 2^n)` (00_scope.md R9). -/
def asr (v : Int) (n : Nat) : Int := v / 2 ^ n

/-- The quotient rounded toward zero, for a divisor that is not zero (00_scope.md R9). -/
def tdiv (a b : Int) : Int := Int.tdiv a b

/-- The remainder of `tdiv`, with the sign of the dividend (00_scope.md R9). -/
def trem (a b : Int) : Int := a - b * tdiv a b

/-- The sign of a value, -1, 0 or 1 (00_scope.md R9). -/
def sgn (v : Int) : Int := if v < 0 then -1 else if v = 0 then 0 else 1

/-- The absolute value of a value, as a natural number. -/
def mag (v : Int) : Nat := v.natAbs

/-- The digits of a square root, one bit a round from bit `k - 1` down, kept where the square still fits under `n`: the
digit-by-digit algorithm 43_sqrt.md names. -/
def isqrtDigits (n : Nat) : Nat → Nat → Nat
  | 0, r => r
  | k + 1, r => isqrtDigits n k (if (r + 2 ^ k) * (r + 2 ^ k) ≤ n then r + 2 ^ k else r)

/-- The largest `r` with `r * r ≤ n` (00_scope.md R9); enough rounds for every `n`. -/
def isqrt (n : Nat) : Nat := isqrtDigits n (n.log2 / 2 + 1) 0

end Sys2Proof.Machine
end

