-- ==== Sys2Proof/Machine/FixedPoint.lean ====
section
/-! DEFINITION. The pure functions of the rules on signed integers: arithmetic (40_alu.md), rounding (42_aux.md) and the
square root (43_sqrt.md).

A function that can fail answers a cause, which the command that called it takes (00_scope.md R10). -/

namespace Sys2Proof.Machine

/-- A value, or the cause of a fault. -/
abbrev Fx := Except Cause Int

/-! ### The named constants as raw integers (10_state.md R30) -/

/-- ONE, 1.0. -/
abbrev one : Int := 65536

/-- MINVALUE. -/
abbrev minValue : Int := -2147483648

/-- MAXVALUE. -/
abbrev maxValue : Int := 2147483647

/-- PI. -/
abbrev pi : Int := 205887

/-- PI_OVER_2, `asr(PI, 1)`. -/
abbrev piOver2 : Int := 102943

/-- TWO_PI, `PI << 1`. -/
abbrev twoPi : Int := 411774

/-! ### Arithmetic -/

/-- 40_alu.md R100, with the explicit sign check. -/
def fxADD (a b : Int) : Fx :=
  let s := wrap32 (a + b)
  if decide (a < 0) = decide (b < 0) ∧ decide (s < 0) ≠ decide (a < 0) then .error .overflow else .ok s

/-- 40_alu.md R102, with the explicit sign check. -/
def fxSUB (a b : Int) : Fx :=
  let d := wrap32 (a - b)
  if decide (a < 0) ≠ decide (b < 0) ∧ decide (d < 0) ≠ decide (a < 0) then .error .overflow else .ok d

/-- 40_alu.md R104: the 17-bit test, rounding half away from zero on the magnitude, and the second test. -/
def fxMUL (a b : Int) : Fx :=
  let p := a * b
  if ¬(-2 ^ 47 ≤ p ∧ p ≤ 2 ^ 47 - 1) then .error .overflow
  else
    let q := sgn p * asr (mag p + 0x8000) 16
    if ¬fits32 q then .error .overflow else .ok q

/-- 40_alu.md R106: the divide-by-zero test comes first. -/
def fxDIV (a b : Int) : Fx :=
  if b = 0 then .error .divideByZero
  else
    let q := tdiv (a * 2 ^ 16) b
    if ¬fits32 q then .error .overflow else .ok q

/-- 40_alu.md R108; never faults. -/
def fxSDIV (a b : Int) : Int :=
  if b = 0 then
    if a > 0 then 2 ^ 31 - 1 else if a < 0 then -2 ^ 31 else 0
  else Min.min (Max.max (tdiv (a * 2 ^ 16) b) (-2 ^ 31)) (2 ^ 31 - 1)

/-- 40_alu.md R110. -/
def fxMOD (a b : Int) : Fx :=
  if b = 0 then .error .divideByZero else .ok (trem a b)

/-- 40_alu.md R112; wraps. -/
def fxNEG (a : Int) : Int := wrap32 (-a)

/-- 40_alu.md R114. -/
def fxINC (a : Int) : Fx := fxADD a one

/-- 40_alu.md R114. -/
def fxDEC (a : Int) : Fx := fxSUB a one

/-- 40_alu.md R117; bits shifted out of bit 31 are lost. -/
def fxSHL (a : Int) (n : Nat) : Int := wrap32 (a * 2 ^ n)

/-- 40_alu.md R117; arithmetic. -/
def fxSHR (a : Int) (n : Nat) : Int := asr a n

/-- 40_alu.md R121. -/
def fxCMP (a b : Int) : Ordering := if a < b then .lt else if a = b then .eq else .gt

/-! ### Rounding and bounds -/

/-- 42_aux.md R150: `(raw + mask) ^ mask` with `mask = raw >> 31`, on words. -/
def absWord (a : Int) : Word :=
  let mask := asr a 31
  word (wrap32 (a + mask)) ^^^ word mask

/-- 42_aux.md R152: the low 16 bits cleared. -/
def floorWord (w : Word) : Word := w &&& 0xFFFF0000#32

/-- 42_aux.md R153. -/
def fxCEIL (a : Int) : Fx :=
  let f := asr a 16 * 65536
  if a - f ≠ 0 then fxADD f 65536 else .ok a

/-- 42_aux.md R155: bias and mask on the magnitude. -/
def fxROUND (a : Int) : Fx :=
  let r := sgn a * (asr (mag a + 0x8000) 16 * 65536)
  if ¬fits32 r then .error .overflow else .ok r

/-- 42_aux.md R158: the low bound first, the high bound second. -/
def fxCLAMP (x lo hi : Int) : Int := Min.min (Max.max x lo) hi

/-! ### Square root -/

/-- 43_sqrt.md R170: the exact integer root of `|a| * 2^16`, truncated, with the sign of `a` restored. -/
def fxSQRT (a : Int) : Int := sgn a * isqrt (mag a * 2 ^ 16)

/-! ### Integer conversions -/

/-- 41_convert.md R140: the range check comes before scaling. -/
def fxITOX (i : Int) : Fx :=
  if i < asr (-2 ^ 31) 16 ∨ i > asr (2 ^ 31 - 1) 16 then .error .overflow else .ok (i * 65536)

/-- 41_convert.md R141: toward negative infinity. -/
def fxXTOI (a : Int) : Int := asr a 16

end Sys2Proof.Machine
end

