-- ==== Sys2Proof/Machine/Operands.lean ====
section
/-! DEFINITION. The operand forms: a data register as a word or as a signed value, and the constant ROM
(00_scope.md R11, 10_state.md R20, R30). -/

namespace Sys2Proof.Machine

/-- `F[i]` (00_scope.md R10); no register is hardwired (10_state.md R20). -/
def State.reg (s : State) (i : Reg) : Word := s.f[i]

/-- `F[i] <- w` (00_scope.md R10). -/
def State.setReg (s : State) (i : Reg) (w : Word) : State := { s with f := s.f.set i w }

/-- A register as a signed raw value, `s32(F[i])` (00_scope.md R11). -/
def State.operand (s : State) (i : Reg) : Int := s32 (s.reg i)

/-- The constant ROM (10_state.md R30). -/
def rom : Fin 8 → Word
  | 0 => 0x00000000#32
  | 1 => 0x00010000#32
  | 2 => 0x80000000#32
  | 3 => 0x7FFFFFFF#32
  | 4 => 0x0003243F#32
  | 5 => 0x0002B7E1#32
  | 6 => 0x0001921F#32
  | 7 => 0x0006487E#32

end Sys2Proof.Machine
end

