-- ==== Sys2Proof/Machine/Ops.lean ====
section
/-! DEFINITION. The shared operations: taking a fault, the host's return from it, and the commit of a command's result
(60_exceptions.md R211, R212, R214, R215; 10_state.md R26, R29). -/

namespace Sys2Proof.Machine

/-- The outcome of a step of this machine. -/
abbrev Result := Host.Outcome State Fault Refusal

/-- The code CAUSE holds (10_state.md R27). -/
def Cause.code : Cause → BitVec 8
  | .overflow => 1#8
  | .divideByZero => 2#8
  | .illegalCommand => 3#8

/-- The sticky bit of a cause (60_exceptions.md R212). -/
def Cause.sticky : Cause → StatusBit
  | .overflow => .ovf
  | .divideByZero => .dz
  | .illegalCommand => .ill

/-- Fault entry: `raise Fault(c)` in the execution of command word `w` (60_exceptions.md R212). Nothing else changes. -/
def State.takeFault (s : State) (c : Cause) (w : Word) : State :=
  { (s.setFlag .fault true).setFlag c.sticky true with cause := c.code, faultcmd := w }

/-- The part of a STATUS write that ends the fault state (10_state.md R26, 60_exceptions.md R215). -/
def State.endFault (s : State) : State :=
  { s.setFlag .fault false with cause := 0#8, faultcmd := 0#32 }

/-- Clears one STATUS bit where the written word has a 1 at it (10_state.md R26). -/
def State.clearWhereOne (s : State) (w : Word) (b : StatusBit) : State :=
  if w.getLsbD b.pos then s.setFlag b false else s

/-- `HostWrite(0x44, w)` (10_state.md R26): the return from a fault and the clearing of the sticky bits. -/
def State.writeStatus (s : State) (w : Word) : State :=
  let s := if w.getLsbD StatusBit.fault.pos then s.endFault else s
  ((((s.clearWhereOne w .ovf).clearWhereOne w .dz).clearWhereOne w .ill).clearWhereOne w .dom).clearWhereOne w .drop

/-- `HostWrite(0x50, w)`: `CTRL.IRQEN <- w[0]` (10_state.md R29, 20_memory.md R52). -/
def State.writeCtrl (s : State) (w : Word) : State := { s with irqen := w.getLsbD 0 }

/-- The commit of a command whose word is `w`: the value goes to the destination, or the fault is taken and nothing else
is written (60_exceptions.md R211, R212). -/
def State.commit (s : State) (w : Word) (rd : Reg) : Fx → Result
  | .ok v => .next (s.setReg rd (word v))
  | .error c => .next (s.takeFault c w)

/-- The commit of a command that also records a domain-relaxed operand in STATUS.DOM when it completes
(43_sqrt.md R171, 45_invtrig.md R200, R203). -/
def State.commitDom (s : State) (w : Word) (rd : Reg) (outside : Bool) : Fx → Result
  | .ok v => .next ((s.setReg rd (word v)).raiseFlag .dom outside)
  | .error c => .next (s.takeFault c w)

/-- The commit of a command that cannot fault: the word goes to the destination (60_exceptions.md R211). -/
def State.put (s : State) (rd : Reg) (w : Word) : Result := .next (s.setReg rd w)

end Sys2Proof.Machine
end

