-- ==== Sys2Proof/Machine/Alu.lean ====
section
/-! DEFINITION. The meanings of the ALU commands (40_alu.md R101-R125). Each runs with no fault latched
(60_exceptions.md R211); the port discards a command otherwise (R214). -/

namespace Sys2Proof.Machine

/-- NOP: nothing (40_alu.md R125). -/
def execNop  (s : State) : Result :=
  .next s

/-- ADD: checked sum (40_alu.md R101). -/
def execAdd (rd rs1 rs2 : Reg) (s : State) : Result :=
  s.commit (encode (.add rd rs1 rs2)) rd (fxADD (s.operand rs1) (s.operand rs2))

/-- SUB: checked difference, `rs1` minus `rs2` (40_alu.md R103). -/
def execSub (rd rs1 rs2 : Reg) (s : State) : Result :=
  s.commit (encode (.sub rd rs1 rs2)) rd (fxSUB (s.operand rs1) (s.operand rs2))

/-- MUL: checked product, rounded half away from zero (40_alu.md R105). -/
def execMul (rd rs1 rs2 : Reg) (s : State) : Result :=
  s.commit (encode (.mul rd rs1 rs2)) rd (fxMUL (s.operand rs1) (s.operand rs2))

/-- DIV: checked quotient, truncated toward zero (40_alu.md R107). -/
def execDiv (rd rs1 rs2 : Reg) (s : State) : Result :=
  s.commit (encode (.div rd rs1 rs2)) rd (fxDIV (s.operand rs1) (s.operand rs2))

/-- MOD: remainder with the sign of the dividend (40_alu.md R111). -/
def execMod (rd rs1 rs2 : Reg) (s : State) : Result :=
  s.commit (encode (.mod rd rs1 rs2)) rd (fxMOD (s.operand rs1) (s.operand rs2))

/-- SDIV: saturating quotient; never faults (40_alu.md R109). -/
def execSdiv (rd rs1 rs2 : Reg) (s : State) : Result :=
  s.put rd (word (fxSDIV (s.operand rs1) (s.operand rs2)))

/-- NEG: two's complement negation, wrapping (40_alu.md R113). -/
def execNeg (rd rs1 : Reg) (s : State) : Result :=
  s.put rd (word (fxNEG (s.operand rs1)))

/-- INC: checked addition of ONE (40_alu.md R115). -/
def execInc (rd rs1 : Reg) (s : State) : Result :=
  s.commit (encode (.inc rd rs1)) rd (fxINC (s.operand rs1))

/-- DEC: checked subtraction of ONE (40_alu.md R116). -/
def execDec (rd rs1 : Reg) (s : State) : Result :=
  s.commit (encode (.dec rd rs1)) rd (fxDEC (s.operand rs1))

/-- SHLI: shift left by SHAMT, bits lost at the top (40_alu.md R118). -/
def execShli (rd rs1 : Reg) (shamt : Nat) (s : State) : Result :=
  s.put rd (word (fxSHL (s.operand rs1) shamt))

/-- SHRI: arithmetic shift right by SHAMT (40_alu.md R119). -/
def execShri (rd rs1 : Reg) (shamt : Nat) (s : State) : Result :=
  s.put rd (word (fxSHR (s.operand rs1) shamt))

/-- CMP: sets LT, EQ and GT and writes no register (40_alu.md R122). -/
def execCmp (rs1 rs2 : Reg) (s : State) : Result :=
  .next (s.setCompare (fxCMP (s.operand rs1) (s.operand rs2)))

/-- MOV: copies the word (40_alu.md R123). -/
def execMov (rd rs1 : Reg) (s : State) : Result :=
  s.put rd (s.reg rs1)

/-- LDC: loads a word of the constant ROM (40_alu.md R124). -/
def execLdc (rd : Reg) (kidx : Fin 8) (s : State) : Result :=
  s.put rd (rom kidx)

end Sys2Proof.Machine
end

