-- ==== Sys2Proof/Machine/Auxiliary.lean ====
section
/-! DEFINITION. The meanings of the auxiliary commands (42_aux.md R150-R158). -/

namespace Sys2Proof.Machine

/-- ABS: branchless absolute value; MINVALUE stays (42_aux.md R150). -/
def execAbs (rd rs1 : Reg) (s : State) : Result :=
  s.put rd (absWord (s.operand rs1))

/-- SIGN: -1.0, 0.0 or 1.0 (42_aux.md R151). -/
def execSign (rd rs1 : Reg) (s : State) : Result :=
  s.put rd (word (sgn (s.operand rs1) * 65536))

/-- FLOOR: clears the fraction bits (42_aux.md R152). -/
def execFloor (rd rs1 : Reg) (s : State) : Result :=
  s.put rd (floorWord (s.reg rs1))

/-- CEIL: toward positive infinity, checked (42_aux.md R154). -/
def execCeil (rd rs1 : Reg) (s : State) : Result :=
  s.commit (encode (.ceil rd rs1)) rd (fxCEIL (s.operand rs1))

/-- ROUND: to the nearest integral value, halves away from zero, checked (42_aux.md R155). -/
def execRound (rd rs1 : Reg) (s : State) : Result :=
  s.commit (encode (.round rd rs1)) rd (fxROUND (s.operand rs1))

/-- MIN: the smaller signed value (42_aux.md R156). -/
def execMin (rd rs1 rs2 : Reg) (s : State) : Result :=
  s.put rd (word (Min.min (s.operand rs1) (s.operand rs2)))

/-- MAX: the larger signed value (42_aux.md R157). -/
def execMax (rd rs1 rs2 : Reg) (s : State) : Result :=
  s.put rd (word (Max.max (s.operand rs1) (s.operand rs2)))

/-- CLAMP: x is rs1, lo is rs2, hi is rs3 (42_aux.md R158). -/
def execClamp (rd rs1 rs2 rs3 : Reg) (s : State) : Result :=
  s.put rd (word (fxCLAMP (s.operand rs1) (s.operand rs2) (s.operand rs3)))

end Sys2Proof.Machine
end

