-- ==== Sys2Proof/Machine/Binary32.lean ====
section
/-! DEFINITION. IEEE 754 binary32 words as FTOX and XTOF read and write them (41_convert.md R142-R144). -/

namespace Sys2Proof.Machine

/-- What a binary32 word stands for (41_convert.md R142): a finite one is
`(-1)^negative * significand * 2^(exponent - 150)`. -/
inductive Binary32 where
  | nan
  | infinity (negative : Bool)
  | finite (negative : Bool) (significand exponent : Nat)
  deriving DecidableEq, Repr

/-- The reading of a word: sign `w[31]`, exponent `w[30:23]`, fraction `w[22:0]` (41_convert.md R142). A word of
exponent field 0 is `f * 2^-149`, that is exponent 1 with no leading bit. -/
def Binary32.ofWord (w : Word) : Binary32 :=
  let s := w.getLsbD 31
  let e := (w.extractLsb' 23 8).toNat
  let f := (w.extractLsb' 0 23).toNat
  if e = 255 then (if f ≠ 0 then .nan else .infinity s)
  else if e = 0 then .finite s f 1
  else .finite s (2 ^ 23 + f) e

/-- `floor(significand * 2^(exponent - 134) + 1/2)`, exactly: the magnitude of a finite value times 65536, rounded half
up (41_convert.md R143). -/
def roundMagnitude (significand exponent : Nat) : Nat :=
  if 134 ≤ exponent then significand * 2 ^ (exponent - 134)
  else (2 * significand + 2 ^ (134 - exponent)) / 2 ^ (134 - exponent + 1)

/-- binary32 to Q16.16: exact rounding half away from zero (41_convert.md R143). -/
def fxFTOX (w : Word) : Fx :=
  match Binary32.ofWord w with
  | .nan => .error .overflow
  | .infinity _ => .error .overflow
  | .finite negative significand exponent =>
    let m : Int := roundMagnitude significand exponent
    let q := if negative then -m else m
    if ¬fits32 q then .error .overflow else .ok q

/-- `n / 2^k` rounded to the nearest integer, ties to even. -/
def roundNearestEven (n k : Nat) : Nat :=
  let q := n / 2 ^ k
  let r := n % 2 ^ k
  if 2 * r > 2 ^ k ∨ (2 * r = 2 ^ k ∧ q % 2 = 1) then q + 1 else q

/-- The exponent and fraction fields, as one number, of the binary32 value nearest to `m / 65536` for `m > 0`. The
significand has its leading one at bit 23; a significand that rounds up to 2^24 carries into the exponent field. -/
def binary32Magnitude (m : Nat) : Nat :=
  let l := m.log2
  let significand := if l ≤ 23 then m * 2 ^ (23 - l) else roundNearestEven m (l - 23)
  (l + 111) * 2 ^ 23 + (significand - 2 ^ 23)

/-- Q16.16 to binary32: `a / 65536` rounded to nearest, ties to even (41_convert.md R144). -/
def xtofWord (a : Int) : Word :=
  if a = 0 then 0#32
  else
    let fields := BitVec.ofNat 32 (binary32Magnitude (mag a))
    if a < 0 then 0x80000000#32 ||| fields else fields

end Sys2Proof.Machine
end

