-- ==== Sys2Proof/Machine/Convert.lean ====
section
/-! DEFINITION. The meanings of the conversion commands (41_convert.md R140-R144). -/

namespace Sys2Proof.Machine

/-- ITOX: 32-bit integer to Q16.16, range checked (41_convert.md R140). -/
def execItox (rd rs1 : Reg) (s : State) : Result :=
  s.commit (encode (.itox rd rs1)) rd (fxITOX (s.operand rs1))

/-- XTOI: Q16.16 to 32-bit integer, toward negative infinity (41_convert.md R141). -/
def execXtoi (rd rs1 : Reg) (s : State) : Result :=
  s.put rd (word (fxXTOI (s.operand rs1)))

/-- FTOX: binary32 to Q16.16, rounded half away from zero (41_convert.md R143). -/
def execFtox (rd rs1 : Reg) (s : State) : Result :=
  s.commit (encode (.ftox rd rs1)) rd (fxFTOX (s.reg rs1))

/-- XTOF: Q16.16 to binary32, rounded to nearest even (41_convert.md R144). -/
def execXtof (rd rs1 : Reg) (s : State) : Result :=
  s.put rd (xtofWord (s.operand rs1))

end Sys2Proof.Machine
end

