-- ==== Sys2Proof/Machine/Sqrt.lean ====
section
/-! DEFINITION. The meaning of SQRT (43_sqrt.md R171). -/

namespace Sys2Proof.Machine

/-- SQRT: the truncated root with the operand's sign; a negative operand sets DOM (43_sqrt.md R171). -/
def execSqrt (rd rs1 : Reg) (s : State) : Result :=
  s.commitDom (encode (.sqrt rd rs1)) rd (decide (s.operand rs1 < 0)) (.ok (fxSQRT (s.operand rs1)))

end Sys2Proof.Machine
end

