-- ==== Sys2Proof/Config.lean ====
section
/-! DEFINITION. What the spec leaves OPEN (00_scope.md R6), as constants without a body, so that no proof can see a
value of them.

The approximation kernels are given by RAW free values here. The functions SIN_KERNEL, ATAN_FN and ATAN2_FN are built
from them in Machine/Trig.lean in such a way that every function meeting the spec's laws arises from some raw values and
every choice of raw values meets the laws (log entries 6 and 7). LAT is left out: the model has no time (log entry 11). -/

namespace Sys2Proof

/-- The free part of SIN_KERNEL at a magnitude: one of the 131079 values of [-(ONE + SIN_EPS), ONE + SIN_EPS],
counted from the lowest (44_trig.md R181, laws K3 and K5). -/
opaque Config.sinRaw : Nat → Fin 131079

/-- The free part of SIN_KERNEL(PI_OVER_2): one of the seven values of [ONE - SIN_EPS, ONE + SIN_EPS], counted from the
lowest (44_trig.md R181, law K4). -/
opaque Config.sinQuarterRaw : Fin 7

/-- The free part of ATAN_FN at a magnitude: one of the 2^32 - 1 values of [-(2^31 - 1), 2^31 - 1], counted from the
lowest (44_trig.md R186, laws A1 and A3). -/
opaque Config.atanRaw : Nat → Fin 4294967295

/-- ATAN_FN(MINVALUE), which no law constrains (44_trig.md R187). -/
opaque Config.atanAtMin : Word

/-- The free part of ATAN2_FN at a magnitude of y and an x: one of the 2^32 - 1 values of [-(2^31 - 1), 2^31 - 1],
counted from the lowest (44_trig.md R188, laws T1 and T2). -/
opaque Config.atan2Raw : Nat → Int → Fin 4294967295

/-- ATAN2_FN(0, x), which no law constrains (44_trig.md R188, 90_conflicts.md C11). -/
opaque Config.atan2AtZero : Int → Word

/-- ATAN2_FN(MINVALUE, x), which no law constrains (44_trig.md R188). -/
opaque Config.atan2AtMin : Int → Word

/-- The contents of a data register after the n-th assertion of the reset input in a run, which the spec leaves
unspecified (10_state.md R22, 70_reset_and_hazards.md R240; log entry 2). -/
opaque Config.resetWord : Nat → Reg → Word

/-- Which 0x100-byte block of the host's map holds the register window (20_memory.md R50; log entry 10). -/
opaque Config.fxuBlock : Nat

/-- FXU_BASE, the host address of the register window: a multiple of 0x100, otherwise OPEN (20_memory.md R50). -/
def Config.fxuBase : Nat := 0x100 * Config.fxuBlock

end Sys2Proof
end

