-- ==== Sys2Proof/Machine/Kernels.lean ====
section
/-! DEFINITION. Range reduction, the OPEN kernels, and the trigonometric functions over them (44_trig.md, 45_invtrig.md).

The kernels are built from the raw free values of Config so that the spec's laws hold whatever those values are, and
nothing else does (log entries 6 and 7). -/

namespace Sys2Proof.Machine

/-- 44_trig.md R180: the integer congruent to `x` modulo TWO_PI in (-PI, PI]. -/
def reduce (x : Int) : Int :=
  let r := trem x twoPi
  if r > pi then r - twoPi else if r ≤ -pi then r + twoPi else r

/-- SIN_EPS (44_trig.md R181). -/
abbrev sinEps : Int := 3

/-- SIN_KERNEL at a magnitude: free within `±(ONE + SIN_EPS)` (law K3), and within SIN_EPS of ONE at PI_OVER_2 (K4). -/
def sinMagnitude (n : Nat) : Int :=
  if n = 102943 then one - sinEps + (Config.sinQuarterRaw.val : Int)
  else (Config.sinRaw n).val - (one + sinEps)

/-- SIN_KERNEL (44_trig.md R181): 0 at 0 (K2), odd (K1), bounded (K3, K4), else free. -/
def sinKernel (r : Int) : Int :=
  if r = 0 then 0 else if r < 0 then -sinMagnitude (mag r) else sinMagnitude (mag r)

/-- ATAN_FN (44_trig.md R186): 0 at 0 (A2), odd except at MINVALUE (A1), else free. DEDUCED (log entry 7, safe): by A1 and
the signed range of its values it is never MINVALUE elsewhere than at MINVALUE. -/
def atanFn (z : Int) : Int :=
  if z = minValue then s32 Config.atanAtMin
  else if z = 0 then 0
  else
    let v : Int := (Config.atanRaw (mag z)).val - maxValue
    if z < 0 then -v else v

/-- ATAN2_FN (44_trig.md R188): antisymmetric in y where T1 says so, free elsewhere. -/
def atan2Fn (y x : Int) : Int :=
  if y = minValue then s32 (Config.atan2AtMin x)
  else if y = 0 then s32 (Config.atan2AtZero x)
  else
    let v : Int := (Config.atan2Raw (mag y) x).val - maxValue
    if y < 0 then -v else v

/-- 44_trig.md R182. -/
def fxSIN (x : Int) : Int := sinKernel (reduce x)

/-- 44_trig.md R183: the quarter turn is added exactly. -/
def fxCOS (x : Int) : Int := sinKernel (reduce (x + piOver2))

/-- 44_trig.md R184. -/
def fxTAN (x : Int) : Int := fxSDIV (fxSIN x) (fxCOS x)

/-- Whether an operand is outside [-One, One] (45_invtrig.md R200). -/
def outsideOne (x : Int) : Bool := x > one ∨ x < -one

/-- 45_invtrig.md R200, the value; the domain record is the command's. -/
def fxASIN (x : Int) : Fx :=
  if outsideOne x then .ok 0
  else if x = one then .ok piOver2
  else if x = -one then .ok (-piOver2)
  else do
    let t ← fxMUL x x
    let u ← fxSUB one t
    let q ← fxDIV x (fxSQRT u)
    .ok (atanFn q)

/-- 45_invtrig.md R203: the subtraction is checked. -/
def fxACOS (x : Int) : Fx := do
  let v ← fxASIN x
  fxSUB piOver2 v

end Sys2Proof.Machine
end

