-- ==== Sys2Proof/Machine/Trig.lean ====
section
/-! DEFINITION. The meanings of the trigonometric and inverse-trigonometric commands (44_trig.md R182-R189,
45_invtrig.md R200-R203). -/

namespace Sys2Proof.Machine

/-- SIN (44_trig.md R182). -/
def execSin (rd rs1 : Reg) (s : State) : Result :=
  s.put rd (word (fxSIN (s.operand rs1)))

/-- COS (44_trig.md R183). -/
def execCos (rd rs1 : Reg) (s : State) : Result :=
  s.put rd (word (fxCOS (s.operand rs1)))

/-- TAN: the saturating quotient of sine and cosine (44_trig.md R184). -/
def execTan (rd rs1 : Reg) (s : State) : Result :=
  s.put rd (word (fxTAN (s.operand rs1)))

/-- ATAN (44_trig.md R187). -/
def execAtan (rd rs1 : Reg) (s : State) : Result :=
  s.put rd (word (atanFn (s.operand rs1)))

/-- ATAN2: y is rs1, x is rs2 (44_trig.md R189). -/
def execAtan2 (rd rs1 rs2 : Reg) (s : State) : Result :=
  s.put rd (word (atan2Fn (s.operand rs1) (s.operand rs2)))

/-- ASIN: an operand outside [-One, One] gives zero and sets DOM (45_invtrig.md R200). -/
def execAsin (rd rs1 : Reg) (s : State) : Result :=
  s.commitDom (encode (.asin rd rs1)) rd (outsideOne (s.operand rs1)) (fxASIN (s.operand rs1))

/-- ACOS: PI_OVER_2 minus the arcsine, checked; DOM as for ASIN (45_invtrig.md R203). -/
def execAcos (rd rs1 : Reg) (s : State) : Result :=
  s.commitDom (encode (.acos rd rs1)) rd (outsideOne (s.operand rs1)) (fxACOS (s.operand rs1))

end Sys2Proof.Machine
end

