-- ==== Sys2Proof/Machine/Dispatch.lean ====
section
/-! DEFINITION. The meaning of every command, one arm each: "run the rule of the decoded row" (60_exceptions.md R211). -/

namespace Sys2Proof.Machine

def exec (i : Instr) (s : State) : Host.Outcome State Fault Refusal :=
  match i with
  | .nop => Sys2Proof.Machine.execNop s
  | .add rd rs1 rs2 => Sys2Proof.Machine.execAdd rd rs1 rs2 s
  | .sub rd rs1 rs2 => Sys2Proof.Machine.execSub rd rs1 rs2 s
  | .mul rd rs1 rs2 => Sys2Proof.Machine.execMul rd rs1 rs2 s
  | .div rd rs1 rs2 => Sys2Proof.Machine.execDiv rd rs1 rs2 s
  | .mod rd rs1 rs2 => Sys2Proof.Machine.execMod rd rs1 rs2 s
  | .sdiv rd rs1 rs2 => Sys2Proof.Machine.execSdiv rd rs1 rs2 s
  | .neg rd rs1 => Sys2Proof.Machine.execNeg rd rs1 s
  | .inc rd rs1 => Sys2Proof.Machine.execInc rd rs1 s
  | .dec rd rs1 => Sys2Proof.Machine.execDec rd rs1 s
  | .shli rd rs1 shamt => Sys2Proof.Machine.execShli rd rs1 shamt s
  | .shri rd rs1 shamt => Sys2Proof.Machine.execShri rd rs1 shamt s
  | .cmp rs1 rs2 => Sys2Proof.Machine.execCmp rs1 rs2 s
  | .mov rd rs1 => Sys2Proof.Machine.execMov rd rs1 s
  | .ldc rd kidx => Sys2Proof.Machine.execLdc rd kidx s
  | .itox rd rs1 => Sys2Proof.Machine.execItox rd rs1 s
  | .xtoi rd rs1 => Sys2Proof.Machine.execXtoi rd rs1 s
  | .ftox rd rs1 => Sys2Proof.Machine.execFtox rd rs1 s
  | .xtof rd rs1 => Sys2Proof.Machine.execXtof rd rs1 s
  | .abs rd rs1 => Sys2Proof.Machine.execAbs rd rs1 s
  | .sign rd rs1 => Sys2Proof.Machine.execSign rd rs1 s
  | .floor rd rs1 => Sys2Proof.Machine.execFloor rd rs1 s
  | .ceil rd rs1 => Sys2Proof.Machine.execCeil rd rs1 s
  | .round rd rs1 => Sys2Proof.Machine.execRound rd rs1 s
  | .min rd rs1 rs2 => Sys2Proof.Machine.execMin rd rs1 rs2 s
  | .max rd rs1 rs2 => Sys2Proof.Machine.execMax rd rs1 rs2 s
  | .clamp rd rs1 rs2 rs3 => Sys2Proof.Machine.execClamp rd rs1 rs2 rs3 s
  | .sqrt rd rs1 => Sys2Proof.Machine.execSqrt rd rs1 s
  | .sin rd rs1 => Sys2Proof.Machine.execSin rd rs1 s
  | .cos rd rs1 => Sys2Proof.Machine.execCos rd rs1 s
  | .tan rd rs1 => Sys2Proof.Machine.execTan rd rs1 s
  | .atan rd rs1 => Sys2Proof.Machine.execAtan rd rs1 s
  | .atan2 rd rs1 rs2 => Sys2Proof.Machine.execAtan2 rd rs1 rs2 s
  | .asin rd rs1 => Sys2Proof.Machine.execAsin rd rs1 s
  | .acos rd rs1 => Sys2Proof.Machine.execAcos rd rs1 s

end Sys2Proof.Machine
end

