-- ==== Sys2Proof/Machine/Window.lean ====
section
/-! DEFINITION. The host register window: its address, its map and its reads (20_memory.md R50-R56). -/

namespace Sys2Proof.Machine

/-- The registers of the window (20_memory.md R52). -/
inductive WindowRegister where
  | data (i : Reg)
  | cmd | status | cause | faultcmd | ctrl
  deriving DecidableEq, Repr

/-- The offset in the window that a host address decodes to; none for an address outside the window
(20_memory.md R50). -/
def windowOffset (address : Nat) : Option (BitVec 8) :=
  if Config.fxuBase ≤ address ∧ address < Config.fxuBase + 0x100 then some (BitVec.ofNat 8 (address - Config.fxuBase))
  else none

/-- The register at an offset; none for a misaligned or reserved one (20_memory.md R51, R52, R55). -/
def windowRegister (offset : BitVec 8) : Option WindowRegister :=
  let o := offset.toNat
  if o % 4 ≠ 0 then none
  else if h : o / 4 < 16 then some (.data ⟨o / 4, h⟩)
  else if o = 0x40 then some .cmd
  else if o = 0x44 then some .status
  else if o = 0x48 then some .cause
  else if o = 0x4C then some .faultcmd
  else if o = 0x50 then some .ctrl
  else none

/-- The register an access reaches; none where it is not performed: another width than 32 bits, or no register at the
offset (20_memory.md R51, R55). -/
def Access.target (a : Access) : Option WindowRegister :=
  if a.width = .word then windowRegister a.offset else none

/-- What a read of a window register returns; no read has a side effect (20_memory.md R52, R54). -/
def State.readRegister (s : State) : WindowRegister → Word
  | .data i => s.reg i
  | .cmd => 0#32
  | .status => s.statusWord
  | .cause => s.causeWord
  | .faultcmd => s.faultcmd
  | .ctrl => s.ctrlWord

/-- `HostRead(offset)`; none where the port answers a bus error (00_scope.md R10, 20_memory.md R51, R52, R55). -/
def State.hostRead (s : State) (offset : BitVec 8) : Option Word :=
  (windowRegister offset).map s.readRegister

/-- Byte lane `j` of a word, bits `8j+7 : 8j` (20_memory.md R56). -/
def byteLane (w : Word) (j : Fin 4) : Byte := w.extractLsb' (8 * j.val) 8

/-- The word whose byte lanes 0 to 3 are these (20_memory.md R56). -/
def ofLanes (b0 b1 b2 b3 : Byte) : Word := b3 ++ (b2 ++ (b1 ++ b0))

end Sys2Proof.Machine
end

