-- ==== Sys2Proof/Machine/Port.lean ====
section
/-! DEFINITION. The host port: the execution of a command write, the other writes, the reset input, and how the port
serves what comes next (20_memory.md R51-R60, 60_exceptions.md R211-R215, 70_reset_and_hazards.md R240). -/

namespace Sys2Proof.Machine

/-- `execute(w)`: decode, then the rule of the decoded row; a word that is no command is an ILLEGAL_COMMAND fault
(60_exceptions.md R211, 30_encoding.md R75-R77). -/
def execute (w : Word) (s : State) : Result :=
  match decode w with
  | .ok i => exec i s
  | .error _ => .next (s.takeFault .illegalCommand w)

/-- `HostWrite(0x40, w)`: discarded while a fault is latched (20_memory.md R53, 60_exceptions.md R214). -/
def writeCommand (w : Word) (s : State) : Result :=
  if s.flag .fault then .next (s.setFlag .drop true) else execute w s

/-- What a write of a window register does (20_memory.md R52). -/
def writeRegister (r : WindowRegister) (w : Word) (s : State) : Result :=
  match r with
  | .data i => .next (s.setReg i w)
  | .cmd => writeCommand w s
  | .status => .next (s.writeStatus w)
  | .cause => .next s
  | .faultcmd => .next s
  | .ctrl => .next (s.writeCtrl w)

/-- What the port answers an access (20_memory.md R51-R55). -/
def State.answerTo (s : State) (a : Access) : Answer :=
  match a.target, a.op with
  | none, _ => .busError
  | some r, .read => .data (s.readRegister r)
  | some _, .write _ => .ack

/-- What an access does to the FXU; one that is not performed changes nothing (20_memory.md R51, R54, R55). -/
def perform (a : Access) (s : State) : Result :=
  match a.target, a.op with
  | none, _ => .next s
  | some _, .read => .next s
  | some r, .write w => writeRegister r w s

/-- The port's answer, given once the access is complete (20_memory.md R53). -/
def withAnswer (answer : Answer) : Result → Result
  | .next s => .next { s with answer := some answer }
  | .fault r => .fault r
  | .refused r => .refused r

/-- Serves one access. One the port answers with a bus error has no meaning in the model (20_memory.md R51, R55). -/
def serve (a : Access) (s : State) : Result :=
  match s.answerTo a with
  | .busError => .fault .badHostAccess
  | answer => withAnswer answer (perform a s)

/-- The assertion of the reset input (70_reset_and_hazards.md R240): the control registers are cleared and the data
registers hold unspecified words, free values of Config (log entry 2, safe). Commands are single steps, so an abandoned
command is one that never ran (log entry 13). -/
def State.resetInput (s : State) : State :=
  { s with
    f := Vector.ofFn (Config.resetWord s.resets), status := 0#32, cause := 0#8, faultcmd := 0#32, irqen := false,
    resets := s.resets + 1, answer := none }

/-- Serves what comes next, in the order received (20_memory.md R60); with nothing to serve the FXU is idle and all state
is kept (60_exceptions.md R230). -/
def serveNext (s : State) : Result :=
  match s.inputs with
  | [] => .next s
  | .reset :: rest => .next { s with inputs := rest }.resetInput
  | .access a :: rest => serve a { s with inputs := rest }

/-- The host access that issues a command word: a 32-bit write to CMD (20_memory.md R53). -/
def commandAccess (w : Word) : Access := ⟨.word, 0x40#8, .write w⟩

/-- The state in which the host issues this command next. A latched fault would make the port discard it (R214), so the
host acknowledges one first (R215); with none latched only `inputs` changes (log entry 9). -/
def State.issue (s : State) (w : Word) : State :=
  let s := if s.flag .fault then s.endFault else s
  { s with inputs := .access (commandAccess w) :: s.inputs }

end Sys2Proof.Machine
end

