-- ==== Sys2Proof/Machine/Step.lean ====
section
/-! DEFINITION. One step of the machine: the port serves what comes next (20_memory.md R60). -/

namespace Sys2Proof.Machine

/-- One step. A command is one step, since it is a single indivisible event (20_memory.md R57, R60). -/
def step : State → Host.Outcome State Fault Refusal := serveNext

/-- The state in which the next step runs the command whose low `nbits` bits are `w`, the bits above them zero. The FXU
fetches nothing (10_state.md R23): the host issues the command by a write to CMD (log entry 9). -/
def State.withFetchWord (s : State) (nbits w : Nat) : State := s.issue (BitVec.ofNat 32 (w % 2 ^ nbits))

end Sys2Proof.Machine
end

