-- ==== Sys2Proof/Safety.lean ====
section
/-! DEFINITION. The terms the claims use: what a command may have done, the legal states, and the spec's notions said
without the model's own algorithms. -/

namespace Sys2Proof.Machine

/-! ### What a command has done -/

/-- Everything but the data registers, STATUS, CAUSE and FAULTCMD is as before. -/
def SamePort (s t : State) : Prop :=
  t.irqen = s.irqen ∧ t.resets = s.resets ∧ t.inputs = s.inputs ∧ t.answer = s.answer

/-- CAUSE and FAULTCMD are as before, and so is everything else but the data registers and STATUS. -/
def SameControl (s t : State) : Prop :=
  t.cause = s.cause ∧ t.faultcmd = s.faultcmd ∧ SamePort s t

/-- The result is a next state in which `rd` holds `w` and nothing else has changed. -/
def Puts (r : Result) (s : State) (rd : Reg) (w : Word) : Prop :=
  ∃ t, r = .next t ∧ t.reg rd = w ∧ (∀ i, i ≠ rd → t.reg i = s.reg i) ∧ t.status = s.status ∧ SameControl s t

/-- As `Puts`, and STATUS.DOM (bit 4) is set where `outside` holds. -/
def PutsDom (r : Result) (s : State) (rd : Reg) (w : Word) (outside : Prop) : Prop :=
  ∃ t, r = .next t ∧ t.reg rd = w ∧ (∀ i, i ≠ rd → t.reg i = s.reg i) ∧
    (outside → t.status = s.status ||| 0x00000010#32) ∧ (¬outside → t.status = s.status) ∧ SameControl s t

/-- The STATUS bits a fault sets: FAULT and the cause's sticky bit (60_exceptions.md R212). -/
def latchBits : Cause → Word
  | .overflow => 0x00000003#32
  | .divideByZero => 0x00000005#32
  | .illegalCommand => 0x00000009#32

/-- The code of a cause (10_state.md R27). -/
def causeCode : Cause → BitVec 8
  | .overflow => 0x01#8
  | .divideByZero => 0x02#8
  | .illegalCommand => 0x03#8

/-- The result is a next state that has latched the cause with the command word `w`, and nothing else has changed
(60_exceptions.md R212). -/
def Latches (r : Result) (s : State) (c : Cause) (w : Word) : Prop :=
  ∃ t, r = .next t ∧ (∀ i, t.reg i = s.reg i) ∧ t.status = s.status ||| latchBits c ∧ t.cause = causeCode c ∧
    t.faultcmd = w ∧ SamePort s t

/-- The command word with these field values (30_encoding.md R71). -/
def spelled (op rd rs1 rs2 rs3 imm8 : Nat) : Word :=
  BitVec.ofNat 32 (op + rd * 2 ^ 8 + rs1 * 2 ^ 12 + rs2 * 2 ^ 16 + rs3 * 2 ^ 20 + imm8 * 2 ^ 24)

/-! ### Integer notions -/

/-- `q` and `r` are the quotient rounded toward zero and its remainder (00_scope.md R9). -/
def IsTruncatedDivision (n d q r : Int) : Prop :=
  n = d * q + r ∧ |r| < |d| ∧ (r = 0 ∨ (0 < r ↔ 0 < n))

/-- `q` is `n / d` rounded to the nearest integer, a half away from zero, for `d > 0`. -/
def IsNearestAway (n d q : Int) : Prop :=
  2 * |n - q * d| ≤ d ∧ (2 * |n - q * d| = d → |n| ≤ |q * d|)

/-- `r` is the largest natural number whose square is at most `n` (00_scope.md R9). -/
def IsRoot (n r : Nat) : Prop := r * r ≤ n ∧ n < (r + 1) * (r + 1)

/-- `r` is the angle `x` reduced into (-PI, PI] (44_trig.md R180). -/
def IsReduced (x r : Int) : Prop := -205887 < r ∧ r ≤ 205887 ∧ ∃ k : Int, x = r + k * 411774

/-- Whether a binary32 word is a NaN or an infinity: its exponent field is 255 (41_convert.md R142). -/
def isNaNOrInfinity (w : Word) : Prop := w.toNat / 2 ^ 23 % 2 ^ 8 = 255

/-- The value of a binary32 word that is neither, from its sign, exponent and fraction fields (41_convert.md R142). -/
def binary32Value (w : Word) : ℚ :=
  let e : Nat := w.toNat / 2 ^ 23 % 2 ^ 8
  let f : Nat := w.toNat % 2 ^ 23
  (if w.toNat < 2 ^ 31 then 1 else -1) *
    (if e = 0 then (f : ℚ) * (2 : ℚ) ^ (-149 : Int) else ((2 ^ 23 + f : Nat) : ℚ) * (2 : ℚ) ^ ((e : Int) - 150))

/-- `q` is the rational rounded to the nearest integer, a half away from zero (41_convert.md R143). -/
def IsRoundedAway (v : ℚ) (q : Int) : Prop :=
  |v - q| ≤ 1 / 2 ∧ (|v - q| = 1 / 2 → |v| ≤ |(q : ℚ)|)

/-! ### The fault table (60_exceptions.md R210) -/

/-- The commands that can raise OVERFLOW. -/
def mayOverflow : Instr → Bool
  | .add _ _ _ => true
  | .sub _ _ _ => true
  | .mul _ _ _ => true
  | .div _ _ _ => true
  | .inc _ _ => true
  | .dec _ _ => true
  | .itox _ _ => true
  | .ftox _ _ => true
  | .ceil _ _ => true
  | .round _ _ => true
  | .acos _ _ => true
  | _ => false

/-- The commands that can raise DIVIDE_BY_ZERO. -/
def mayDivideByZero : Instr → Bool
  | .div _ _ _ => true
  | .mod _ _ _ => true
  | _ => false

/-- Whether a cause is one a command word can have raised. -/
def canRaise (w : Word) : Cause → Bool
  | .overflow => match decode w with
    | .ok i => mayOverflow i
    | .error _ => false
  | .divideByZero => match decode w with
    | .ok i => mayDivideByZero i
    | .error _ => false
  | .illegalCommand => match decode w with
    | .ok _ => false
    | .error _ => true

/-! ### Reserved opcodes and unused fields -/

/-- The reserved OP values of 30_encoding.md R76. -/
abbrev isReservedOp (op : Nat) : Prop :=
  op = 0x0F ∨ (0x14 ≤ op ∧ op ≤ 0x1F) ∨ (0x28 ≤ op ∧ op ≤ 0x2F) ∨ (0x31 ≤ op ∧ op ≤ 0x3F) ∨
    (0x45 ≤ op ∧ op ≤ 0x47) ∨ (0x4A ≤ op ∧ op ≤ 0xFF)

/-- The format of a defined OP, by the map of 30_encoding.md R74; none for a reserved OP. -/
def formatOfOp (op : Nat) : Option Format :=
  if op = 0x00 then some .fn
  else if op ≤ 0x06 then some .f3r
  else if op ≤ 0x09 then some .f2r
  else if op ≤ 0x0B then some .fri
  else if op = 0x0C then some .fc
  else if op = 0x0D then some .f2r
  else if op = 0x0E then some .fk
  else if 0x10 ≤ op ∧ op ≤ 0x13 then some .f2r
  else if 0x20 ≤ op ∧ op ≤ 0x24 then some .f2r
  else if op = 0x25 ∨ op = 0x26 then some .f3r
  else if op = 0x27 then some .f4r
  else if op = 0x30 then some .f2r
  else if 0x40 ≤ op ∧ op ≤ 0x43 then some .f2r
  else if op = 0x44 then some .f3r
  else if op = 0x48 ∨ op = 0x49 then some .f2r
  else none

/-- The zero fields of a format are zero in the word (30_encoding.md R72, the column "zero fields"). -/
def unusedFieldsZero (w : Word) : Format → Bool
  | .fn => w.extractLsb' 8 24 == 0#24
  | .f2r => w.extractLsb' 16 4 == 0#4 && w.extractLsb' 20 4 == 0#4 && w.extractLsb' 24 8 == 0#8
  | .f3r => w.extractLsb' 20 4 == 0#4 && w.extractLsb' 24 8 == 0#8
  | .f4r => w.extractLsb' 24 8 == 0#8
  | .fri => w.extractLsb' 16 4 == 0#4 && w.extractLsb' 20 4 == 0#4 && w.extractLsb' 29 3 == 0#3
  | .fk => w.extractLsb' 12 4 == 0#4 && w.extractLsb' 16 4 == 0#4 && w.extractLsb' 20 4 == 0#4 &&
      w.extractLsb' 27 5 == 0#5
  | .fc => w.extractLsb' 8 4 == 0#4 && w.extractLsb' 20 4 == 0#4 && w.extractLsb' 24 8 == 0#8

/-! ### Source and destination registers -/

/-- The data registers a command reads. -/
def sourcesOf : Instr → List Reg
  | .nop => []
  | .add _ a b => [a, b]
  | .sub _ a b => [a, b]
  | .mul _ a b => [a, b]
  | .div _ a b => [a, b]
  | .mod _ a b => [a, b]
  | .sdiv _ a b => [a, b]
  | .neg _ a => [a]
  | .inc _ a => [a]
  | .dec _ a => [a]
  | .shli _ a _ => [a]
  | .shri _ a _ => [a]
  | .cmp a b => [a, b]
  | .mov _ a => [a]
  | .ldc _ _ => []
  | .itox _ a => [a]
  | .xtoi _ a => [a]
  | .ftox _ a => [a]
  | .xtof _ a => [a]
  | .abs _ a => [a]
  | .sign _ a => [a]
  | .floor _ a => [a]
  | .ceil _ a => [a]
  | .round _ a => [a]
  | .min _ a b => [a, b]
  | .max _ a b => [a, b]
  | .clamp _ a b c => [a, b, c]
  | .sqrt _ a => [a]
  | .sin _ a => [a]
  | .cos _ a => [a]
  | .tan _ a => [a]
  | .atan _ a => [a]
  | .atan2 _ a b => [a, b]
  | .asin _ a => [a]
  | .acos _ a => [a]

/-- The data register a command writes, its RD field; none for NOP and CMP. -/
def destinationOf : Instr → Option Reg
  | .nop => none
  | .cmp _ _ => none
  | .add d _ _ => some d
  | .sub d _ _ => some d
  | .mul d _ _ => some d
  | .div d _ _ => some d
  | .mod d _ _ => some d
  | .sdiv d _ _ => some d
  | .neg d _ => some d
  | .inc d _ => some d
  | .dec d _ => some d
  | .shli d _ _ => some d
  | .shri d _ _ => some d
  | .mov d _ => some d
  | .ldc d _ => some d
  | .itox d _ => some d
  | .xtoi d _ => some d
  | .ftox d _ => some d
  | .xtof d _ => some d
  | .abs d _ => some d
  | .sign d _ => some d
  | .floor d _ => some d
  | .ceil d _ => some d
  | .round d _ => some d
  | .min d _ _ => some d
  | .max d _ _ => some d
  | .clamp d _ _ _ => some d
  | .sqrt d _ => some d
  | .sin d _ => some d
  | .cos d _ => some d
  | .tan d _ => some d
  | .atan d _ => some d
  | .atan2 d _ _ => some d
  | .asin d _ => some d
  | .acos d _ => some d

/-- CMP, the one command that writes LT, EQ and GT (10_state.md R24). -/
def isCmp : Instr → Bool
  | .cmp _ _ => true
  | _ => false

/-- The commands that can set DOM (10_state.md R25). -/
def maySetDom : Instr → Bool
  | .sqrt _ _ => true
  | .asin _ _ => true
  | .acos _ _ => true
  | _ => false

/-! ### The legal states -/

/-- At most one of LT, EQ and GT is 1 (10_state.md R24). -/
def compareFlagsLegal (s : State) : Bool :=
  !(s.flag .lt && s.flag .eq) && !(s.flag .lt && s.flag .gt) && !(s.flag .eq && s.flag .gt)

/-- While FAULT is 1, CAUSE and FAULTCMD describe a fault the word in FAULTCMD can have raised; while it is 0 both are 0
(60_exceptions.md R210, R212, R216; 10_state.md R26). -/
def latchLegal (s : State) : Bool :=
  if s.flag .fault then
    (s.cause == causeCode .overflow && canRaise s.faultcmd .overflow) ||
    (s.cause == causeCode .divideByZero && canRaise s.faultcmd .divideByZero) ||
    (s.cause == causeCode .illegalCommand && canRaise s.faultcmd .illegalCommand)
  else s.cause == 0#8 && s.faultcmd == 0#32

/-- The invariant of the machine: reserved STATUS bits are 0 (10_state.md R25), at most one comparison flag is 1, and the
fault latch is legal. -/
def LegalState (s : State) : Prop :=
  s.status &&& ~~~statusDefined = 0#32 ∧ compareFlagsLegal s = true ∧ latchLegal s = true

/-- Whether the input is a host access the port answers with a bus error: another width than 32 bits, an offset that is
no multiple of 4, or a reserved offset (20_memory.md R51, R55). -/
def isBadInput : Input → Bool
  | .reset => false
  | .access a => a.width != .word || a.offset.toNat % 4 != 0 || decide (0x54 ≤ a.offset.toNat)

end Sys2Proof.Machine
end

