-- ==== Sys2Proof/Certificates/Slice0/Obligations.lean ====
section
/-! DEFINITION. The statements about the FXU, from the numbered rules of spec/.

`exec i s` is the execution of 60_exceptions.md R211; the port runs it only where no fault is latched (R214, log entry 17).
The fields `inputs`, `answer` and `resets` of State are the model's own (log entries 2, 3 and 4). -/

open Sys2Proof Sys2Proof.Machine

/-! ### Encoding (30_encoding.md) -/

/-- Example words of R78 and one word of every engine, written out from R71 and R74, decode to their commands. -/
def Obligations.SpecWordsDecodeToTheirCommands : Prop :=
  decode 0x00000000#32 = .ok .nop ∧ decode 0x00000130#32 = .ok (.sqrt 1 0) ∧ decode 0x00010201#32 = .ok (.add 2 0 1) ∧
    decode 0x00321027#32 = .ok (.clamp 0 1 2 3) ∧ decode 0x0300010A#32 = .ok (.shli 1 0 3) ∧
    decode 0x0400030E#32 = .ok (.ldc 3 4) ∧ decode 0x0001000C#32 = .ok (.cmp 0 1) ∧
    decode 0x00000113#32 = .ok (.xtof 1 0) ∧ decode 0x00010244#32 = .ok (.atan2 2 0 1) ∧
    decode 0x00004549#32 = .ok (.acos 5 4)

/-- Every well-formed command is decoded back from its word, every operand with it. -/
def Obligations.DecodeGivesBackTheEncodedCommand : Prop :=
  ∀ i : Instr, i.wellFormed = true → decode (encode i) = .ok i

/-- A word that decodes is the word of the well-formed command it decodes to: no bit of it is ignored. -/
def Obligations.EveryLegalWordIsTheEncodingOfItsCommand : Prop :=
  ∀ (w : Word) (i : Instr), decode w = .ok i → i.wellFormed = true ∧ encode i = w

/-- R74: a word spells the operation of a row iff it passes the row's mask test, and it passes at most one row's. -/
def Obligations.AWordSpellsAtMostOneRow : Prop :=
  (∀ (w : Word) (i : Instr), decode w = .ok i → w &&& i.format.mask = matchOf i.opcode) ∧
    (∀ (w : Word) (j : Instr), w &&& j.format.mask = matchOf j.opcode →
      ∃ i, decode w = .ok i ∧ i.opcode = j.opcode ∧ i.format = j.format) ∧
    (∀ (w : Word) (i j : Instr), w &&& i.format.mask = matchOf i.opcode → w &&& j.format.mask = matchOf j.opcode →
      i.opcode = j.opcode)

/-- R75: a command whose OP is defined but one of whose zero fields is not zero latches ILLEGAL_COMMAND and does nothing
else; NOP is only the all-zero word. -/
def Obligations.UnusedFieldSetIsIllegal : Prop :=
  (∀ (s : State) (w : Word) (m : Format), s.flag .fault = false → formatOfOp (w.toNat % 2 ^ 8) = some m →
      unusedFieldsZero w m = false → Latches (writeCommand w s) s .illegalCommand w) ∧
    (∀ w : Word, decode w = .ok .nop ↔ w = 0#32)

/-- R76: the OP values outside the map of R74 are exactly the listed ones, and a command with one of them latches
ILLEGAL_COMMAND and does nothing else; the only word that decodes to the no-op is the all-zero one. -/
def Obligations.ReservedOpIsIllegal : Prop :=
  (∀ op : Nat, op < 256 → (formatOfOp op = none ↔ isReservedOp op)) ∧
    (∀ (s : State) (w : Word), s.flag .fault = false → isReservedOp (w.toNat % 2 ^ 8) →
      Latches (writeCommand w s) s .illegalCommand w) ∧
    (∀ w : Word, decode w = .ok .nop ↔ w = 0#32)

/-! ### The host port (20_memory.md, 10_state.md) -/

/-- R53, R211: where the host's next access writes a command word and no fault is latched, the step is `exec` of the
decoded command and then the acknowledge; a word that is no command latches ILLEGAL_COMMAND. -/
def Obligations.StepRunsTheDecodedCommand : Prop :=
  ∀ (s : State) (w : Word) (rest : List Input), s.inputs = .access ⟨.word, 0x40#8, .write w⟩ :: rest →
    s.flag .fault = false →
    (∀ i, decode w = .ok i → ∃ t, exec i { s with inputs := rest } = .next t ∧
      step s = .next { t with answer := some .ack }) ∧
    (∀ e, decode w = .error e → ∃ t, Latches (.next t) { s with inputs := rest } .illegalCommand w ∧
      step s = .next { t with answer := some .ack })

/-- R214: while a fault is latched a write to CMD is acknowledged and discarded: only DROP changes. -/
def Obligations.CommandIsDiscardedWhileAFaultIsLatched : Prop :=
  ∀ (s : State) (w : Word) (rest : List Input), s.inputs = .access ⟨.word, 0x40#8, .write w⟩ :: rest →
    s.flag .fault = true →
    ∃ t, step s = .next t ∧ (∀ i, t.reg i = s.reg i) ∧ t.status = s.status ||| 0x00000020#32 ∧ t.cause = s.cause ∧
      t.faultcmd = s.faultcmd ∧ t.irqen = s.irqen ∧ t.resets = s.resets ∧ t.inputs = rest ∧ t.answer = some .ack

/-- R52, R54: a 32-bit read returns the word of the map at its offset and changes no state of the FXU. -/
def Obligations.ReadReturnsTheRegisterAndChangesNothing : Prop :=
  ∀ (s : State) (o : BitVec 8) (rest : List Input), s.inputs = .access ⟨.word, o, .read⟩ :: rest →
    ∀ w : Word,
      ((∃ i : Reg, o.toNat = 4 * i.val ∧ w = s.reg i) ∨ (o = 0x40#8 ∧ w = 0#32) ∨
        (o = 0x44#8 ∧ w = s.status &&& 0x0000073F#32) ∨ (o = 0x48#8 ∧ w.toNat = s.cause.toNat) ∨
        (o = 0x4C#8 ∧ w = s.faultcmd) ∨ (o = 0x50#8 ∧ w.toNat = if s.irqen then 1 else 0)) →
      step s = .next { s with inputs := rest, answer := some (.data w) }

/-- R52: a host write to a data register changes only that register, whether or not a fault is latched. -/
def Obligations.DataRegisterWriteChangesOnlyThatRegister : Prop :=
  ∀ (s : State) (i : Reg) (w : Word) (rest : List Input),
    s.inputs = .access ⟨.word, BitVec.ofNat 8 (4 * i.val), .write w⟩ :: rest →
    ∃ t, step s = .next t ∧ t.reg i = w ∧ (∀ j, j ≠ i → t.reg j = s.reg j) ∧ t.status = s.status ∧ t.cause = s.cause ∧
      t.faultcmd = s.faultcmd ∧ t.irqen = s.irqen ∧ t.resets = s.resets ∧ t.inputs = rest ∧ t.answer = some .ack

/-- R26: a host write to STATUS clears the bits 0 to 5 that are 1 in the word and no other; with bit 0 set it clears CAUSE
and FAULTCMD as well; it changes nothing else. -/
def Obligations.StatusWriteClearsTheBitsWrittenOne : Prop :=
  ∀ (s : State) (w : Word) (rest : List Input), s.inputs = .access ⟨.word, 0x44#8, .write w⟩ :: rest →
    ∃ t, step s = .next t ∧ t.status = s.status &&& ~~~(w &&& 0x0000003F#32) ∧
      (w.getLsbD 0 = true → t.cause = 0#8 ∧ t.faultcmd = 0#32) ∧
      (w.getLsbD 0 = false → t.cause = s.cause ∧ t.faultcmd = s.faultcmd) ∧
      (∀ i, t.reg i = s.reg i) ∧ t.irqen = s.irqen ∧ t.resets = s.resets ∧ t.inputs = rest ∧ t.answer = some .ack

/-- R27, R28, R29: writes to CAUSE and FAULTCMD are ignored; a write to CTRL takes bit 0 as IRQEN and ignores the rest. -/
def Obligations.ReadOnlyAndControlWrites : Prop :=
  ∀ (s : State) (w : Word) (rest : List Input),
    (∀ o : BitVec 8, o = 0x48#8 ∨ o = 0x4C#8 → s.inputs = .access ⟨.word, o, .write w⟩ :: rest →
      step s = .next { s with inputs := rest, answer := some .ack }) ∧
    (s.inputs = .access ⟨.word, 0x50#8, .write w⟩ :: rest →
      ∃ t, step s = .next t ∧ t = { s with irqen := t.irqen, inputs := rest, answer := some .ack } ∧
        t.ctrlWord = w &&& 1#32)

/-- R25, R27, R29: in every state the reserved bits of STATUS, CAUSE and CTRL read 0. -/
def Obligations.ReservedBitsReadZero : Prop :=
  ∀ (s : State) (k : Nat),
    ((k = 6 ∨ k = 7 ∨ 11 ≤ k) → s.statusWord.getLsbD k = false) ∧ (8 ≤ k → s.causeWord.getLsbD k = false) ∧
      (1 ≤ k → s.ctrlWord.getLsbD k = false)

/-- R220: irq is FAULT and IRQEN; the entry of a fault raises it where IRQEN is 1, and clearing FAULT or IRQEN lowers
it. -/
def Obligations.IrqFollowsFaultAndEnable : Prop :=
  (∀ s : State, s.irq = (s.status.getLsbD 0 && s.irqen)) ∧
    (∀ (r : Result) (s t : State) (c : Cause) (w : Word), r = .next t → Latches r s c w → t.irq = s.irqen) ∧
    (∀ (s : State) (w : Word), w.getLsbD 0 = true → (s.writeStatus w).irq = false) ∧
    (∀ (s : State) (w : Word), w.getLsbD 0 = false → (s.writeCtrl w).irq = false)

/-- R51, R55: an access of another width, at a misaligned or a reserved offset is answered with a bus error, changes
nothing, and has no meaning in the model. -/
def Obligations.BadAccessIsABusError : Prop :=
  ∀ (s : State) (a : Access) (rest : List Input), s.inputs = .access a :: rest →
    (a.width ≠ .word ∨ a.offset.toNat % 4 ≠ 0 ∨ 0x54 ≤ a.offset.toNat) →
    s.answerTo a = .busError ∧ perform a s = .next s ∧ step s = .fault .badHostAccess

/-- The machine stops only on a bad access: on every other input a step answers a next state, and with none it keeps all
state (60_exceptions.md R230; that a step with no input is idle is the model's choice, log entry 3). -/
def Obligations.StepStopsOnlyOnABadAccess : Prop :=
  (∀ s : State, (∀ x, s.inputs.head? = some x → isBadInput x = false) → ∃ t, step s = .next t) ∧
    (∀ s : State, s.inputs = [] → step s = .next s)

/-- R50: FXU_BASE is a multiple of 0x100, the 0x100 addresses from it decode to their offsets, and no other address does. -/
def Obligations.WindowIsTheBlockAtFxuBase : Prop :=
  Config.fxuBase % 0x100 = 0 ∧
    (∀ o : BitVec 8, windowOffset (Config.fxuBase + o.toNat) = some o) ∧
    (∀ a : Nat, (a < Config.fxuBase ∨ Config.fxuBase + 0x100 ≤ a) → windowOffset a = none)

/-- R56: bit `k` of byte lane `j` is bit `8j + k` of the word, and four lanes make their word. -/
def Obligations.ByteLanesAreLittleEndian : Prop :=
  (∀ (w : Word) (j : Fin 4) (k : Nat), k < 8 → (byteLane w j).getLsbD k = w.getLsbD (8 * j.val + k)) ∧
    (∀ w : Word, ofLanes (byteLane w 0) (byteLane w 1) (byteLane w 2) (byteLane w 3) = w)

/-! ### Reset and the invariant -/

/-- R240: after reset, and after every assertion of the reset input, STATUS, CAUSE, FAULTCMD and CTRL are 0 and irq is 0. -/
def Obligations.ResetClearsTheControlState : Prop :=
  (State.reset.status = 0#32 ∧ State.reset.cause = 0#8 ∧ State.reset.faultcmd = 0#32 ∧ State.reset.ctrlWord = 0#32 ∧
      State.reset.irq = false) ∧
    (∀ (s : State) (rest : List Input), s.inputs = .reset :: rest →
      ∃ t, step s = .next t ∧ t.status = 0#32 ∧ t.cause = 0#8 ∧ t.faultcmd = 0#32 ∧ t.ctrlWord = 0#32 ∧
        t.irq = false ∧ t.inputs = rest)

/-- The invariant holds right after reset. -/
def Obligations.ResetMeetsTheInvariant : Prop := LegalState State.reset

/-- Every step keeps the invariant: reserved STATUS bits 0, at most one comparison flag, and a fault latch that describes a
fault its command word can have raised. -/
def Obligations.EveryStepKeepsTheInvariant : Prop :=
  ∀ s t : State, LegalState s → step s = .next t → LegalState t

/-! ### Faults (60_exceptions.md) -/

/-- R211, R21: every command answers a next state; it either latches one fault and writes nothing else, or completes with
no change but of its RD register, of LT, EQ and GT where it is CMP, and of DOM where it is SQRT, ASIN or ACOS. -/
def Obligations.CommandCompletesOrLatchesAFault : Prop :=
  ∀ (i : Instr) (s : State), ∃ t, exec i s = .next t ∧
    ((∃ c, Latches (.next t) s c (encode i)) ∨
      ((∀ r, destinationOf i ≠ some r → t.reg r = s.reg r) ∧
        (∀ k, k ≠ 4 → k ≠ 8 → k ≠ 9 → k ≠ 10 → t.status.getLsbD k = s.status.getLsbD k) ∧
        (isCmp i = false → ∀ k, k ≠ 4 → t.status.getLsbD k = s.status.getLsbD k) ∧
        (maySetDom i = false → t.status.getLsbD 4 = s.status.getLsbD 4) ∧
        SameControl s t))

/-- R210: a command executed with no fault latched latches only a cause the table gives it: OVERFLOW, DIVIDE_BY_ZERO or
none, and then its own word is in FAULTCMD. -/
def Obligations.FaultsFollowTheCauseTable : Prop :=
  ∀ (i : Instr) (s t : State), s.flag .fault = false → exec i s = .next t → t.flag .fault = true →
    t.faultcmd = encode i ∧
      ((t.cause = 1#8 ∧ mayOverflow i = true) ∨ (t.cause = 2#8 ∧ mayDivideByZero i = true))

/-- R24: only a CMP that is executed, or a reset, changes LT, EQ or GT: no other command, no fault and no host write. -/
def Obligations.OnlyCmpChangesTheComparisonFlags : Prop :=
  ∀ s t : State, step s = .next t → ∀ b, b = .lt ∨ b = .eq ∨ b = .gt → t.flag b ≠ s.flag b →
    s.inputs.head? = some .reset ∨
      ∃ (a : Access) (w : Word) (rs1 rs2 : Reg), s.inputs.head? = some (.access a) ∧ a.op = .write w ∧
        a.offset = 0x40#8 ∧ s.flag .fault = false ∧ decode w = .ok (.cmp rs1 rs2)

/-- While a fault is latched, no step but one that ends the fault changes CAUSE or FAULTCMD (60_exceptions.md R216, which
the spec marks as derived). -/
def Obligations.LatchedFaultIsKeptUntilCleared : Prop :=
  ∀ s t : State, s.flag .fault = true → step s = .next t → t.flag .fault = true →
    t.cause = s.cause ∧ t.faultcmd = s.faultcmd

/-- R215: a step ends the fault state only by a reset or by a STATUS write with bit 0 set, so no command does; that write
clears FAULT, CAUSE and FAULTCMD, keeps the sticky bits the word has 0 at, and the next command executes. -/
def Obligations.StatusWriteEndsTheFaultState : Prop :=
  (∀ s t : State, s.flag .fault = true → step s = .next t → t.flag .fault = false →
    s.inputs.head? = some .reset ∨
      ∃ w : Word, s.inputs.head? = some (.access ⟨.word, 0x44#8, .write w⟩) ∧ w.getLsbD 0 = true) ∧
  ∀ (s : State) (w v : Word), w.getLsbD 0 = true →
    (s.writeStatus w).flag .fault = false ∧ (s.writeStatus w).cause = 0#8 ∧ (s.writeStatus w).faultcmd = 0#32 ∧
      (∀ b : StatusBit, b ≠ .fault → w.getLsbD b.pos = false → (s.writeStatus w).flag b = s.flag b) ∧
      writeCommand v (s.writeStatus w) = execute v (s.writeStatus w)

/-- A command's outcome depends on its source registers alone: two states that agree on them give the same fault or the
same word in RD, the same LT, EQ and GT where the command is CMP, and both raise DOM or neither does. -/
def Obligations.OutcomeDependsOnTheSourcesAlone : Prop :=
  ∀ (i : Instr) (s s' t t' : State), s.flag .fault = false → s'.flag .fault = false →
    (∀ r ∈ sourcesOf i, s.reg r = s'.reg r) → exec i s = .next t → exec i s' = .next t' →
    t.flag .fault = t'.flag .fault ∧ (t.flag .fault = true → t.cause = t'.cause) ∧
      (t.flag .fault = false → ∀ d, destinationOf i = some d → t.reg d = t'.reg d) ∧
      (isCmp i = true → ∀ b, b = .lt ∨ b = .eq ∨ b = .gt → t.flag b = t'.flag b) ∧
      (∃ raised : Bool, t.flag .dom = (s.flag .dom || raised) ∧ t'.flag .dom = (s'.flag .dom || raised))

/-! ### ALU commands (40_alu.md) -/

/-- R101: ADD puts the exact sum, or latches OVERFLOW where it does not fit. -/
def Obligations.AddIsExactOrOverflows : Prop :=
  ∀ (rd rs1 rs2 : Reg) (s : State),
    encode (.add rd rs1 rs2) = spelled 0x01 rd rs1 rs2 0 0 ∧
    (fits32 (s.operand rs1 + s.operand rs2) →
      Puts (exec (.add rd rs1 rs2) s) s rd (word (s.operand rs1 + s.operand rs2))) ∧
    (¬fits32 (s.operand rs1 + s.operand rs2) →
      Latches (exec (.add rd rs1 rs2) s) s .overflow (spelled 0x01 rd rs1 rs2 0 0))

/-- R103: SUB puts the exact difference, or latches OVERFLOW where it does not fit. -/
def Obligations.SubIsExactOrOverflows : Prop :=
  ∀ (rd rs1 rs2 : Reg) (s : State),
    encode (.sub rd rs1 rs2) = spelled 0x02 rd rs1 rs2 0 0 ∧
    (fits32 (s.operand rs1 - s.operand rs2) →
      Puts (exec (.sub rd rs1 rs2) s) s rd (word (s.operand rs1 - s.operand rs2))) ∧
    (¬fits32 (s.operand rs1 - s.operand rs2) →
      Latches (exec (.sub rd rs1 rs2) s) s .overflow (spelled 0x02 rd rs1 rs2 0 0))

/-- R104, R105: MUL puts the product over 65536, rounded to nearest with halves away from zero, or latches OVERFLOW where
the product fails the 17-bit test or the rounded value does not fit. -/
def Obligations.MulIsNearestOrOverflows : Prop :=
  ∀ (rd rs1 rs2 : Reg) (s : State),
    encode (.mul rd rs1 rs2) = spelled 0x03 rd rs1 rs2 0 0 ∧
    ∃ q : Int, IsNearestAway (s.operand rs1 * s.operand rs2) 65536 q ∧
      ((-2 ^ 47 ≤ s.operand rs1 * s.operand rs2 ∧ s.operand rs1 * s.operand rs2 ≤ 2 ^ 47 - 1) ∧ fits32 q →
        Puts (exec (.mul rd rs1 rs2) s) s rd (word q)) ∧
      (¬((-2 ^ 47 ≤ s.operand rs1 * s.operand rs2 ∧ s.operand rs1 * s.operand rs2 ≤ 2 ^ 47 - 1) ∧ fits32 q) →
        Latches (exec (.mul rd rs1 rs2) s) s .overflow (spelled 0x03 rd rs1 rs2 0 0))

/-- R106, R107: DIV latches DIVIDE_BY_ZERO for a zero divisor, else puts the scaled quotient rounded toward zero, or
latches OVERFLOW where it does not fit. -/
def Obligations.DivTruncatesOrFaults : Prop :=
  ∀ (rd rs1 rs2 : Reg) (s : State),
    encode (.div rd rs1 rs2) = spelled 0x04 rd rs1 rs2 0 0 ∧
    (s.operand rs2 = 0 → Latches (exec (.div rd rs1 rs2) s) s .divideByZero (spelled 0x04 rd rs1 rs2 0 0)) ∧
    (s.operand rs2 ≠ 0 → ∃ q r : Int, IsTruncatedDivision (s.operand rs1 * 2 ^ 16) (s.operand rs2) q r ∧
      (fits32 q → Puts (exec (.div rd rs1 rs2) s) s rd (word q)) ∧
      (¬fits32 q → Latches (exec (.div rd rs1 rs2) s) s .overflow (spelled 0x04 rd rs1 rs2 0 0)))

/-- R108, R109: SDIV never faults; it puts the quotient of DIV saturated, and for a zero divisor the bound of the
dividend's sign, or 0 for 0. -/
def Obligations.SdivSaturates : Prop :=
  ∀ (rd rs1 rs2 : Reg) (s : State),
    encode (.sdiv rd rs1 rs2) = spelled 0x06 rd rs1 rs2 0 0 ∧
    (s.operand rs2 = 0 → Puts (exec (.sdiv rd rs1 rs2) s) s rd
      (if 0 < s.operand rs1 then 0x7FFFFFFF#32 else if s.operand rs1 < 0 then 0x80000000#32 else 0#32)) ∧
    (s.operand rs2 ≠ 0 → ∃ q r : Int, IsTruncatedDivision (s.operand rs1 * 2 ^ 16) (s.operand rs2) q r ∧
      (fits32 q → Puts (exec (.sdiv rd rs1 rs2) s) s rd (word q)) ∧
      (2 ^ 31 - 1 < q → Puts (exec (.sdiv rd rs1 rs2) s) s rd 0x7FFFFFFF#32) ∧
      (q < -2 ^ 31 → Puts (exec (.sdiv rd rs1 rs2) s) s rd 0x80000000#32))

/-- R110, R111: MOD latches DIVIDE_BY_ZERO for a zero divisor, else puts the remainder with the sign of the dividend. -/
def Obligations.ModIsTheTruncatedRemainder : Prop :=
  ∀ (rd rs1 rs2 : Reg) (s : State),
    encode (.mod rd rs1 rs2) = spelled 0x05 rd rs1 rs2 0 0 ∧
    (s.operand rs2 = 0 → Latches (exec (.mod rd rs1 rs2) s) s .divideByZero (spelled 0x05 rd rs1 rs2 0 0)) ∧
    (s.operand rs2 ≠ 0 → ∃ q r : Int, IsTruncatedDivision (s.operand rs1) (s.operand rs2) q r ∧
      fits32 r ∧ Puts (exec (.mod rd rs1 rs2) s) s rd (word r))

/-- R112, R113: NEG puts the negation, and MINVALUE for MINVALUE; it never faults. -/
def Obligations.NegWrapsOnlyAtMinValue : Prop :=
  ∀ (rd rs1 : Reg) (s : State),
    encode (.neg rd rs1) = spelled 0x07 rd rs1 0 0 0 ∧
    ∃ w : Word, Puts (exec (.neg rd rs1) s) s rd w ∧
      (s.reg rs1 = 0x80000000#32 → w = 0x80000000#32) ∧ (s.reg rs1 ≠ 0x80000000#32 → s32 w = -s.operand rs1)

/-- R115, R116: INC adds and DEC subtracts 65536, or they latch OVERFLOW at the ends of the range. -/
def Obligations.IncAndDecMoveByOneOrOverflow : Prop :=
  ∀ (rd rs1 : Reg) (s : State),
    encode (.inc rd rs1) = spelled 0x08 rd rs1 0 0 0 ∧ encode (.dec rd rs1) = spelled 0x09 rd rs1 0 0 0 ∧
    (s.operand rs1 ≤ 2 ^ 31 - 1 - 65536 → Puts (exec (.inc rd rs1) s) s rd (word (s.operand rs1 + 65536))) ∧
    (2 ^ 31 - 1 - 65536 < s.operand rs1 → Latches (exec (.inc rd rs1) s) s .overflow (spelled 0x08 rd rs1 0 0 0)) ∧
    (-2 ^ 31 + 65536 ≤ s.operand rs1 → Puts (exec (.dec rd rs1) s) s rd (word (s.operand rs1 - 65536))) ∧
    (s.operand rs1 < -2 ^ 31 + 65536 → Latches (exec (.dec rd rs1) s) s .overflow (spelled 0x09 rd rs1 0 0 0))

/-- R118, R119: for every count 0 to 31, SHLI moves the bits up and fills with zeros, SHRI moves them down and copies the
sign bit in; neither faults. -/
def Obligations.ShiftsMoveTheBits : Prop :=
  ∀ (rd rs1 : Reg) (n : Nat) (s : State), n < 32 →
    encode (.shli rd rs1 n) = spelled 0x0A rd rs1 0 0 n ∧ encode (.shri rd rs1 n) = spelled 0x0B rd rs1 0 0 n ∧
    (∃ w : Word, Puts (exec (.shli rd rs1 n) s) s rd w ∧
      ∀ k, k < 32 → w.getLsbD k = (decide (n ≤ k) && (s.reg rs1).getLsbD (k - n))) ∧
    (∃ w : Word, Puts (exec (.shri rd rs1 n) s) s rd w ∧
      ∀ k, k < 32 → w.getLsbD k = if k + n < 32 then (s.reg rs1).getLsbD (k + n) else (s.reg rs1).getLsbD 31)

/-- R122, R24: CMP sets exactly the flag of the signed order of its operands and changes nothing else. -/
def Obligations.CmpSetsExactlyOneFlag : Prop :=
  ∀ (rs1 rs2 : Reg) (s : State),
    encode (.cmp rs1 rs2) = spelled 0x0C 0 rs1 rs2 0 0 ∧
    ∃ t, exec (.cmp rs1 rs2) s = .next t ∧
      t.status.getLsbD 8 = decide (s.operand rs1 < s.operand rs2) ∧
      t.status.getLsbD 9 = decide (s.operand rs1 = s.operand rs2) ∧
      t.status.getLsbD 10 = decide (s.operand rs2 < s.operand rs1) ∧
      (∀ k, k ≠ 8 → k ≠ 9 → k ≠ 10 → t.status.getLsbD k = s.status.getLsbD k) ∧
      (∀ r, t.reg r = s.reg r) ∧ SameControl s t

/-- R123, R124, R125: MOV copies a word, LDC loads a ROM word, NOP changes nothing. -/
def Obligations.MovLdcNopDoWhatTheySay : Prop :=
  ∀ (rd rs1 : Reg) (k : Fin 8) (s : State),
    encode (.mov rd rs1) = spelled 0x0D rd rs1 0 0 0 ∧ encode (.ldc rd k) = spelled 0x0E rd 0 0 0 k ∧
    encode .nop = 0#32 ∧
    Puts (exec (.mov rd rs1) s) s rd (s.reg rs1) ∧ exec .nop s = .next s ∧
    Puts (exec (.ldc rd k) s) s rd
      ((#v[0x00000000#32, 0x00010000#32, 0x80000000#32, 0x7FFFFFFF#32, 0x0003243F#32, 0x0002B7E1#32, 0x0001921F#32,
        0x0006487E#32] : Vector Word 8)[k])

/-! ### Conversion commands (41_convert.md) -/

/-- R140, R141: ITOX scales an integer of -32768 to 32767 and latches OVERFLOW for any other; XTOI puts the integer part,
rounded toward negative infinity, and never faults. -/
def Obligations.IntegerConversions : Prop :=
  ∀ (rd rs1 : Reg) (s : State),
    encode (.itox rd rs1) = spelled 0x10 rd rs1 0 0 0 ∧ encode (.xtoi rd rs1) = spelled 0x11 rd rs1 0 0 0 ∧
    (-32768 ≤ s.operand rs1 ∧ s.operand rs1 ≤ 32767 →
      Puts (exec (.itox rd rs1) s) s rd (word (s.operand rs1 * 65536))) ∧
    (s.operand rs1 < -32768 ∨ 32767 < s.operand rs1 →
      Latches (exec (.itox rd rs1) s) s .overflow (spelled 0x10 rd rs1 0 0 0)) ∧
    (∃ i : Int, i * 65536 ≤ s.operand rs1 ∧ s.operand rs1 < (i + 1) * 65536 ∧
      Puts (exec (.xtoi rd rs1) s) s rd (word i))

/-- An integer of -32768 to 32767 survives ITOX and then XTOI (a corner case the spec marks as derived, 41_convert.md
R141). -/
def Obligations.IntegerRoundTrip : Prop :=
  ∀ (rd rd' rs1 : Reg) (s : State), -32768 ≤ s.operand rs1 → s.operand rs1 ≤ 32767 →
    ∃ t u, exec (.itox rd rs1) s = .next t ∧ exec (.xtoi rd' rd) t = .next u ∧ u.reg rd' = s.reg rs1

/-- R142, R143: FTOX puts the binary32 value times 65536, rounded to nearest with halves away from zero; it latches
OVERFLOW for a NaN, an infinity and a result that does not fit. -/
def Obligations.FtoxRoundsTheExactValue : Prop :=
  ∀ (rd rs1 : Reg) (s : State),
    encode (.ftox rd rs1) = spelled 0x12 rd rs1 0 0 0 ∧
    (isNaNOrInfinity (s.reg rs1) → Latches (exec (.ftox rd rs1) s) s .overflow (spelled 0x12 rd rs1 0 0 0)) ∧
    (¬isNaNOrInfinity (s.reg rs1) → ∃ q : Int, IsRoundedAway (binary32Value (s.reg rs1) * 65536) q ∧
      (fits32 q → Puts (exec (.ftox rd rs1) s) s rd (word q)) ∧
      (¬fits32 q → Latches (exec (.ftox rd rs1) s) s .overflow (spelled 0x12 rd rs1 0 0 0)))

/-- R144: XTOF never faults; it puts the binary32 value nearest to `a / 65536`, the one of even significand in a tie, and
+0.0 for 0. -/
def Obligations.XtofIsNearestEven : Prop :=
  ∀ (rd rs1 : Reg) (s : State),
    encode (.xtof rd rs1) = spelled 0x13 rd rs1 0 0 0 ∧
    ∃ v : Word, Puts (exec (.xtof rd rs1) s) s rd v ∧ ¬isNaNOrInfinity v ∧ (s.operand rs1 = 0 → v = 0#32) ∧
      ∀ w : Word, ¬isNaNOrInfinity w →
        |binary32Value v - (s.operand rs1 : ℚ) / 65536| ≤ |binary32Value w - (s.operand rs1 : ℚ) / 65536| ∧
        (binary32Value w ≠ binary32Value v →
          |binary32Value v - (s.operand rs1 : ℚ) / 65536| = |binary32Value w - (s.operand rs1 : ℚ) / 65536| →
          v.toNat % 2 = 0)

/-! ### Auxiliary commands (42_aux.md) -/

/-- R150, R151: ABS puts the absolute value, and MINVALUE for MINVALUE; SIGN puts -1.0, 0.0 or 1.0; neither faults. -/
def Obligations.AbsAndSign : Prop :=
  ∀ (rd rs1 : Reg) (s : State),
    encode (.abs rd rs1) = spelled 0x20 rd rs1 0 0 0 ∧ encode (.sign rd rs1) = spelled 0x21 rd rs1 0 0 0 ∧
    (∃ w : Word, Puts (exec (.abs rd rs1) s) s rd w ∧
      (s.reg rs1 = 0x80000000#32 → w = 0x80000000#32) ∧ (s.reg rs1 ≠ 0x80000000#32 → s32 w = |s.operand rs1|)) ∧
    Puts (exec (.sign rd rs1) s) s rd
      (if s.operand rs1 < 0 then 0xFFFF0000#32 else if s.operand rs1 = 0 then 0#32 else 0x00010000#32)

/-- R152, R154: FLOOR puts the greatest integral value not above the operand; CEIL puts the least one not below it, or
latches OVERFLOW above 0x7FFF0000. -/
def Obligations.FloorAndCeil : Prop :=
  ∀ (rd rs1 : Reg) (s : State),
    encode (.floor rd rs1) = spelled 0x22 rd rs1 0 0 0 ∧ encode (.ceil rd rs1) = spelled 0x23 rd rs1 0 0 0 ∧
    (∃ n : Int, n * 65536 ≤ s.operand rs1 ∧ s.operand rs1 < (n + 1) * 65536 ∧ fits32 (n * 65536) ∧
      Puts (exec (.floor rd rs1) s) s rd (word (n * 65536))) ∧
    (s.operand rs1 ≤ 0x7FFF0000 → ∃ n : Int, s.operand rs1 ≤ n * 65536 ∧ (n - 1) * 65536 < s.operand rs1 ∧
      fits32 (n * 65536) ∧ Puts (exec (.ceil rd rs1) s) s rd (word (n * 65536))) ∧
    (0x7FFF0000 < s.operand rs1 → Latches (exec (.ceil rd rs1) s) s .overflow (spelled 0x23 rd rs1 0 0 0))

/-- R155: ROUND puts the nearest integral value, a half away from zero, or latches OVERFLOW from 0x7FFF8000 on. -/
def Obligations.RoundIsNearestAwayFromZero : Prop :=
  ∀ (rd rs1 : Reg) (s : State),
    encode (.round rd rs1) = spelled 0x24 rd rs1 0 0 0 ∧
    (s.operand rs1 < 0x7FFF8000 → ∃ n : Int, IsNearestAway (s.operand rs1) 65536 n ∧ fits32 (n * 65536) ∧
      Puts (exec (.round rd rs1) s) s rd (word (n * 65536))) ∧
    (0x7FFF8000 ≤ s.operand rs1 → Latches (exec (.round rd rs1) s) s .overflow (spelled 0x24 rd rs1 0 0 0))

/-- R156, R157, R158: MIN and MAX put the smaller and the larger signed operand; CLAMP puts hi where hi is below lo or
below x, else lo where x is below lo, else x; none faults. -/
def Obligations.MinMaxClamp : Prop :=
  ∀ (rd rs1 rs2 rs3 : Reg) (s : State),
    encode (.min rd rs1 rs2) = spelled 0x25 rd rs1 rs2 0 0 ∧ encode (.max rd rs1 rs2) = spelled 0x26 rd rs1 rs2 0 0 ∧
    encode (.clamp rd rs1 rs2 rs3) = spelled 0x27 rd rs1 rs2 rs3 0 ∧
    Puts (exec (.min rd rs1 rs2) s) s rd (if s.operand rs1 ≤ s.operand rs2 then s.reg rs1 else s.reg rs2) ∧
    Puts (exec (.max rd rs1 rs2) s) s rd (if s.operand rs1 ≤ s.operand rs2 then s.reg rs2 else s.reg rs1) ∧
    Puts (exec (.clamp rd rs1 rs2 rs3) s) s rd
      (if s.operand rs3 < s.operand rs2 ∨ s.operand rs3 < s.operand rs1 then s.reg rs3
       else if s.operand rs1 < s.operand rs2 then s.reg rs2 else s.reg rs1)

/-! ### Square root (43_sqrt.md) -/

/-- R170, R171: SQRT never faults; it puts the exact truncated root of the magnitude times 2^16 with the operand's sign,
and sets DOM where the operand is negative. -/
def Obligations.SqrtIsTheExactRoot : Prop :=
  ∀ (rd rs1 : Reg) (s : State),
    encode (.sqrt rd rs1) = spelled 0x30 rd rs1 0 0 0 ∧
    ∃ r : Nat, IsRoot ((s.operand rs1).natAbs * 2 ^ 16) r ∧ r ≤ 11863283 ∧
      PutsDom (exec (.sqrt rd rs1) s) s rd (word (if s.operand rs1 < 0 then -(r : Int) else r)) (s.operand rs1 < 0)

/-! ### Trigonometric engine (44_trig.md) -/

/-- The reduced angle exists, is unique, and is what the reduction computes: "it exists and is unique because the interval
holds exactly `TWO_PI` integers" (44_trig.md R180, which the spec marks as derived). -/
def Obligations.RangeReductionIsUnique : Prop :=
  ∀ x r : Int, IsReduced x r ↔ r = reduce x

/-- R181: SIN_KERNEL meets the laws K1 to K4 whatever the free values are. -/
def Obligations.SinKernelMeetsItsLaws : Prop :=
  (∀ r : Int, -205887 < r → r < 205887 → sinKernel (-r) = -sinKernel r) ∧ sinKernel 0 = 0 ∧
    (∀ r : Int, -205887 < r → r ≤ 205887 → -(65536 + 3) ≤ sinKernel r ∧ sinKernel r ≤ 65536 + 3) ∧
    |sinKernel 102943 - 65536| ≤ 3

/-- R182, R183: SIN and COS put the kernel at the reduced angle, COS a quarter turn on, within ONE and SIN_EPS for every
operand; neither faults. -/
def Obligations.SinAndCos : Prop :=
  ∀ (rd rs1 : Reg) (s : State),
    encode (.sin rd rs1) = spelled 0x40 rd rs1 0 0 0 ∧ encode (.cos rd rs1) = spelled 0x41 rd rs1 0 0 0 ∧
    (∃ r : Int, IsReduced (s.operand rs1) r ∧ |sinKernel r| ≤ 65536 + 3 ∧
      Puts (exec (.sin rd rs1) s) s rd (word (sinKernel r))) ∧
    (∃ r : Int, IsReduced (s.operand rs1 + 102943) r ∧ |sinKernel r| ≤ 65536 + 3 ∧
      Puts (exec (.cos rd rs1) s) s rd (word (sinKernel r)))

/-- SIN of 0 is 0, SIN has period TWO_PI, and SIN is odd except where the reduced angle is PI (corner cases the spec
marks as derived, 44_trig.md R182). -/
def Obligations.SinIsPeriodicAndOdd : Prop :=
  ∀ (rd rs1 : Reg) (s s' : State) (t t' : State), exec (.sin rd rs1) s = .next t → exec (.sin rd rs1) s' = .next t' →
    (s.operand rs1 = 0 → t.reg rd = 0#32) ∧
    (s'.operand rs1 = s.operand rs1 + 411774 → t'.reg rd = t.reg rd) ∧
    (s'.operand rs1 = -s.operand rs1 → ¬IsReduced (s.operand rs1) 205887 → s32 (t'.reg rd) = -s32 (t.reg rd))

/-- R184: TAN never faults; it puts the saturating quotient of the sine and the cosine, and 0 for the angle 0. -/
def Obligations.TanIsTheSaturatingQuotient : Prop :=
  ∀ (rd rs1 : Reg) (s : State),
    encode (.tan rd rs1) = spelled 0x42 rd rs1 0 0 0 ∧
    ∃ rs rc : Int, IsReduced (s.operand rs1) rs ∧ IsReduced (s.operand rs1 + 102943) rc ∧
      (s.operand rs1 = 0 → Puts (exec (.tan rd rs1) s) s rd 0#32) ∧
      (sinKernel rc = 0 → Puts (exec (.tan rd rs1) s) s rd
        (if 0 < sinKernel rs then 0x7FFFFFFF#32 else if sinKernel rs < 0 then 0x80000000#32 else 0#32)) ∧
      (sinKernel rc ≠ 0 → ∃ q r : Int, IsTruncatedDivision (sinKernel rs * 2 ^ 16) (sinKernel rc) q r ∧
        Puts (exec (.tan rd rs1) s) s rd
          (if fits32 q then word q else if 0 < q then 0x7FFFFFFF#32 else 0x80000000#32))

/-- R186, R187: ATAN_FN takes signed 32-bit values, is 0 at 0 and odd except at MINVALUE; ATAN puts its value and never
faults. -/
def Obligations.AtanMeetsItsLaws : Prop :=
  (∀ z : Int, fits32 z → fits32 (atanFn z)) ∧ atanFn 0 = 0 ∧
    (∀ z : Int, fits32 z → z ≠ -2 ^ 31 → atanFn (-z) = -atanFn z) ∧
    (∀ (rd rs1 : Reg) (s : State), encode (.atan rd rs1) = spelled 0x43 rd rs1 0 0 0 ∧
      Puts (exec (.atan rd rs1) s) s rd (word (atanFn (s.operand rs1))))

/-- R188, R189: ATAN2_FN takes signed 32-bit values and is antisymmetric in y except at 0 and MINVALUE; ATAN2 puts its
value at y = rs1 and x = rs2 and never faults. -/
def Obligations.Atan2MeetsItsLaws : Prop :=
  (∀ y x : Int, fits32 y → fits32 x → fits32 (atan2Fn y x)) ∧
    (∀ y x : Int, fits32 y → fits32 x → y ≠ 0 → y ≠ -2 ^ 31 → atan2Fn (-y) x = -atan2Fn y x) ∧
    (∀ (rd rs1 rs2 : Reg) (s : State), encode (.atan2 rd rs1 rs2) = spelled 0x44 rd rs1 rs2 0 0 ∧
      Puts (exec (.atan2 rd rs1 rs2) s) s rd (word (atan2Fn (s.operand rs1) (s.operand rs2))))

/-! ### Inverse-trigonometric unit (45_invtrig.md) -/

/-- ASIN never faults; outside [-One, One] it puts 0 and sets DOM, at the ends it puts PI_OVER_2 and its negation, inside
it puts ATAN_FN of the quotient `x / sqrt(1 - x^2)` computed by the rules of MUL, SUB, SQRT and DIV (45_invtrig.md R200,
R202). The bounds on the way are those of R201, which the spec marks as derived. -/
def Obligations.AsinIsTheComposition : Prop :=
  ∀ (rd rs1 : Reg) (s : State),
    encode (.asin rd rs1) = spelled 0x48 rd rs1 0 0 0 ∧
    (s.operand rs1 > 65536 ∨ s.operand rs1 < -65536 → PutsDom (exec (.asin rd rs1) s) s rd 0#32 True) ∧
    (s.operand rs1 = 65536 → PutsDom (exec (.asin rd rs1) s) s rd 0x0001921F#32 False) ∧
    (s.operand rs1 = -65536 → PutsDom (exec (.asin rd rs1) s) s rd 0xFFFE6DE1#32 False) ∧
    (-65536 < s.operand rs1 ∧ s.operand rs1 < 65536 → ∃ (t q r : Int) (root : Nat),
      IsNearestAway (s.operand rs1 * s.operand rs1) 65536 t ∧ 2 ≤ 65536 - t ∧ 65536 - t ≤ 65536 ∧
      IsRoot ((65536 - t).toNat * 2 ^ 16) root ∧ 362 ≤ root ∧
      IsTruncatedDivision (s.operand rs1 * 2 ^ 16) root q r ∧ |q| ≤ 11864369 ∧
      PutsDom (exec (.asin rd rs1) s) s rd (word (atanFn q)) False)

/-- ASIN of a negated operand is the negated ASIN (a corner case the spec marks as derived, 45_invtrig.md R200). -/
def Obligations.AsinIsOdd : Prop :=
  ∀ (rd rs1 : Reg) (s s' t t' : State), exec (.asin rd rs1) s = .next t → exec (.asin rd rs1) s' = .next t' →
    s'.operand rs1 = -s.operand rs1 → s32 (t'.reg rd) = -s32 (t.reg rd)

/-- R203: ACOS puts PI_OVER_2 less the arcsine that ASIN puts for the same operand and sets DOM outside [-One, One]; it
latches OVERFLOW, and leaves DOM, where that difference does not fit. It fits for 0 and for every operand outside
(-One, One). -/
def Obligations.AcosIsPiOver2LessAsin : Prop :=
  ∀ (rd rs1 : Reg) (s : State),
    encode (.acos rd rs1) = spelled 0x49 rd rs1 0 0 0 ∧
    ∃ t, exec (.asin rd rs1) s = .next t ∧
      (if fits32 (102943 - s32 (t.reg rd)) then
        PutsDom (exec (.acos rd rs1) s) s rd (word (102943 - s32 (t.reg rd)))
          (s.operand rs1 > 65536 ∨ s.operand rs1 < -65536)
       else Latches (exec (.acos rd rs1) s) s .overflow (spelled 0x49 rd rs1 0 0 0)) ∧
      (s.operand rs1 ≤ -65536 ∨ 65536 ≤ s.operand rs1 ∨ s.operand rs1 = 0 →
        PutsDom (exec (.acos rd rs1) s) s rd (word (102943 - s32 (t.reg rd)))
          (s.operand rs1 > 65536 ∨ s.operand rs1 < -65536))
end

