-- ==== Sys2Proof/Laws/Integers.lean ====
section
/-! SUPPORT. What the integer primitives and the pure functions of the rules compute, said once. -/

namespace Sys2Proof.Machine

/-! ### Words and signed values (00_scope.md R8) -/

theorem s32_range (w : Word) : -2147483648 ≤ s32 w ∧ s32 w ≤ 2147483647 := by
  have h1 := BitVec.le_toInt w
  have h2 := BitVec.toInt_lt (x := w)
  simp only [s32]
  norm_num at h1 h2
  omega

theorem fits32_s32 (w : Word) : fits32 (s32 w) := by
  have := s32_range w
  constructor <;> norm_num <;> omega

@[simp] theorem word_s32 (w : Word) : word (s32 w) = w := BitVec.ofInt_toInt

theorem s32_word (v : Int) (h : fits32 v) : s32 (word v) = v := by
  simp only [s32, word, BitVec.toInt_ofInt]
  exact Int.bmod_eq_of_le (by norm_num; have := h.1; norm_num at this; omega)
    (by norm_num; have := h.2; norm_num at this; omega)

theorem fits32_of {v : Int} (h1 : -2147483648 ≤ v) (h2 : v ≤ 2147483647) : fits32 v := ⟨by norm_num; omega, by norm_num; omega⟩
theorem of_fits32 {v : Int} (h : fits32 v) : -2147483648 ≤ v ∧ v ≤ 2147483647 := by norm_num [fits32] at h; exact h

theorem word_injective {a b : Int} (ha : fits32 a) (hb : fits32 b) (h : word a = word b) : a = b := by
  rw [← s32_word a ha, h, s32_word b hb]

theorem wrap32_of_fits (v : Int) (h : fits32 v) : wrap32 v = v := s32_word v h

theorem wrap32_range (v : Int) : -2147483648 ≤ wrap32 v ∧ wrap32 v ≤ 2147483647 := s32_range _

/-- `wrap32 v` differs from `v` by a multiple of 2^32. -/
theorem wrap32_congr (v : Int) : ∃ k : Int, wrap32 v = v + k * 4294967296 := by
  refine ⟨(wrap32 v - v) / 4294967296, ?_⟩
  have h : (wrap32 v - v) % 4294967296 = 0 := by
    simp only [wrap32, s32, word, BitVec.toInt_ofInt]
    have := @Int.bmod_emod v (2 ^ 32)
    norm_num at this ⊢
    omega
  omega

theorem word_wrap32 (v : Int) : word (wrap32 v) = word v := by simp [wrap32]

/-- The signed value by the sign bit (00_scope.md R8). -/
theorem s32_eq (w : Word) : s32 w = if w.getLsbD 31 then (w.toNat : Int) - 2 ^ 32 else (w.toNat : Int) := by
  simp only [s32, BitVec.toInt_eq_msb_cond, BitVec.msb_eq_getLsbD_last]
  split <;> simp_all

/-! ### Signs and magnitudes (00_scope.md R9) -/

theorem sgn_mul_mag (v : Int) : sgn v * mag v = v := by
  unfold sgn mag
  split
  · omega
  · split <;> omega

theorem sgn_neg (v : Int) : sgn (-v) = -sgn v := by
  unfold sgn
  by_cases h : v < 0
  · simp [h]; omega
  · by_cases h0 : v = 0
    · simp [h0]
    · have : 0 < v := by omega
      simp [h, h0, this]

@[simp] theorem mag_neg (v : Int) : mag (-v) = mag v := by simp [mag]

theorem trem_eq (a b : Int) : trem a b = Int.tmod a b := by
  simp only [trem, tdiv]
  have := Int.mul_tdiv_add_tmod a b
  omega

theorem tdiv_neg (a b : Int) : tdiv (-a) b = -tdiv a b := by simp [tdiv]

/-! ### The integer square root (00_scope.md R9) -/

theorem isqrtDigits_spec (n : Nat) : ∀ k r : Nat, r * r ≤ n → n < (r + 2 ^ k) * (r + 2 ^ k) →
    isqrtDigits n k r * isqrtDigits n k r ≤ n ∧ n < (isqrtDigits n k r + 1) * (isqrtDigits n k r + 1) := by
  intro k
  induction k with
  | zero => intro r h1 h2; simpa [isqrtDigits] using ⟨h1, h2⟩
  | succ k ih =>
    intro r h1 h2
    rw [isqrtDigits]
    apply ih
    · split <;> assumption
    · split
      · rw [pow_succ] at h2
        have : r + 2 ^ k + 2 ^ k = r + 2 ^ k * 2 := by ring
        rw [this]; exact h2
      · omega

/-- `isqrt n` is the largest `r` with `r * r ≤ n`. -/
theorem isqrt_spec (n : Nat) : isqrt n * isqrt n ≤ n ∧ n < (isqrt n + 1) * (isqrt n + 1) := by
  apply isqrtDigits_spec
  · simp
  · have h : n < 2 ^ (n.log2 + 1) := Nat.lt_log2_self
    have h2 : 2 ^ (n.log2 + 1) ≤ 2 ^ (n.log2 / 2 + 1) * 2 ^ (n.log2 / 2 + 1) := by
      rw [← pow_add]
      exact Nat.pow_le_pow_right (by norm_num) (by omega)
    simpa using lt_of_lt_of_le h h2

theorem isqrt_unique {n r : Nat} (h1 : r * r ≤ n) (h2 : n < (r + 1) * (r + 1)) : isqrt n = r := by
  obtain ⟨h3, h4⟩ := isqrt_spec n
  have a : isqrt n < r + 1 := by by_contra h; push Not at h; nlinarith
  have b : r < isqrt n + 1 := by by_contra h; push Not at h; nlinarith
  omega

/-! ### The pure functions (40_alu.md, 42_aux.md) -/

/-- R100: the sign check is exactly `not fits32(a + b)`. -/
theorem fxADD_eq {a b : Int} (ha : fits32 a) (hb : fits32 b) :
    fxADD a b = if fits32 (a + b) then .ok (a + b) else .error .overflow := by
  obtain ⟨k, hk⟩ := wrap32_congr (a + b)
  have hr := wrap32_range (a + b)
  norm_num [fits32] at ha hb
  unfold fxADD
  simp only [ne_eq, decide_eq_decide]
  by_cases hf : fits32 (a + b)
  · rw [wrap32_of_fits _ hf, if_pos hf, if_neg]
    omega
  · rw [if_neg hf, if_pos]
    norm_num [fits32] at hf
    omega

/-- R102: the sign check is exactly `not fits32(a - b)`. -/
theorem fxSUB_eq {a b : Int} (ha : fits32 a) (hb : fits32 b) :
    fxSUB a b = if fits32 (a - b) then .ok (a - b) else .error .overflow := by
  obtain ⟨k, hk⟩ := wrap32_congr (a - b)
  have hr := wrap32_range (a - b)
  norm_num [fits32] at ha hb
  unfold fxSUB
  simp only [ne_eq, decide_eq_decide]
  by_cases hf : fits32 (a - b)
  · rw [wrap32_of_fits _ hf, if_pos hf, if_neg]
    omega
  · rw [if_neg hf, if_pos]
    norm_num [fits32] at hf
    omega

/-- R110, R9: the remainder of the truncated division. -/
theorem fxMOD_eq (a b : Int) : fxMOD a b = if b = 0 then .error .divideByZero else .ok (Int.tmod a b) := by
  simp [fxMOD, trem_eq]

theorem fxMUL_comm_neg (a b : Int) : fxMUL (-a) (-b) = fxMUL a b := by
  unfold fxMUL
  rw [neg_mul_neg]

/-- The causes a function can answer (60_exceptions.md R210). -/
theorem fxADD_error {a b : Int} {c : Cause} (h : fxADD a b = .error c) : c = .overflow := by
  unfold fxADD at h
  simp only at h
  split at h <;> cases h
  rfl

theorem fxSUB_error {a b : Int} {c : Cause} (h : fxSUB a b = .error c) : c = .overflow := by
  unfold fxSUB at h
  simp only at h
  split at h <;> cases h
  rfl

theorem fxMUL_error {a b : Int} {c : Cause} (h : fxMUL a b = .error c) : c = .overflow := by
  unfold fxMUL at h
  simp only at h
  split at h
  · cases h; rfl
  · split at h <;> cases h
    rfl

theorem fxMOD_error {a b : Int} {c : Cause} (h : fxMOD a b = .error c) : c = .divideByZero := by
  unfold fxMOD at h
  split at h <;> cases h
  rfl

theorem fxCEIL_error {a : Int} {c : Cause} (h : fxCEIL a = .error c) : c = .overflow := by
  unfold fxCEIL at h
  simp only at h
  split at h
  · exact fxADD_error h
  · cases h

theorem fxROUND_error {a : Int} {c : Cause} (h : fxROUND a = .error c) : c = .overflow := by
  unfold fxROUND at h
  simp only at h
  split at h <;> cases h
  rfl

theorem fxITOX_error {i : Int} {c : Cause} (h : fxITOX i = .error c) : c = .overflow := by
  unfold fxITOX at h
  split at h <;> cases h
  rfl

/-- R180: the reduced angle lies in (-PI, PI] and differs from the angle by turns. -/
theorem reduce_spec (x : Int) : -205887 < reduce x ∧ reduce x ≤ 205887 ∧ ∃ k : Int, x = reduce x + k * 411774 := by
  have h1 := Int.mul_tdiv_add_tmod x 411774
  have h2 := Int.tmod_lt_of_pos x (b := 411774) (by norm_num)
  have h3 := Int.lt_tmod_of_pos x (b := 411774) (by norm_num)
  unfold reduce
  simp only [trem_eq, twoPi, pi]
  split
  · exact ⟨by omega, by omega, Int.tdiv x 411774 + 1, by omega⟩
  · split
    · exact ⟨by omega, by omega, Int.tdiv x 411774 - 1, by omega⟩
    · exact ⟨by omega, by omega, Int.tdiv x 411774, by omega⟩

end Sys2Proof.Machine
end

