-- ==== Sys2Proof/Laws/Binary32.lean ====
section
/-! SUPPORT. binary32 words in the terms of the claims: the value of a word, and that the two roundings are the nearest
value (41_convert.md R142-R144). -/

namespace Sys2Proof.Machine

/-- A NaN or an infinity is an OVERFLOW of FTOX (R143). -/
theorem fxFTOX_nan {w : Word} (h : isNaNOrInfinity w) : fxFTOX w = .error .overflow := by
  have e : (w.extractLsb' 23 8).toNat = 255 := by
    rw [BitVec.extractLsb'_toNat, Nat.shiftRight_eq_div_pow]; exact h
  unfold fxFTOX Binary32.ofWord
  simp only [e, if_true]
  split_ifs <;> rfl

theorem sign_bit (w : Word) : w.getLsbD 31 = decide (2 ^ 31 ≤ w.toNat) := by
  have := w.isLt
  rw [BitVec.getLsbD, Nat.testBit_eq_decide_div_mod_eq]
  congr 1
  apply propext
  omega

/-- The parts of a word that is neither, and its value (R142). -/
theorem ofWord_finite {w : Word} (h : ¬isNaNOrInfinity w) : ∃ (g : Bool) (m e : Nat), Binary32.ofWord w = .finite g m e ∧ 1 ≤ e ∧ e ≤ 254 ∧ m < 2 ^ 24 ∧
   (e = 1 ∨ 2 ^ 23 ≤ m) ∧
    binary32Value w = (if g then -1 else 1) * ((m : ℚ) * 2 ^ ((e : Int) - 150)) := by
  have he : (w.extractLsb' 23 8).toNat = w.toNat / 2 ^ 23 % 2 ^ 8 := by
    rw [BitVec.extractLsb'_toNat, Nat.shiftRight_eq_div_pow]
  have hf : (w.extractLsb' 0 23).toNat = w.toNat % 2 ^ 23 := by
    rw [BitVec.extractLsb'_toNat]; simp
  have hlt := w.isLt
  unfold isNaNOrInfinity at h
  unfold Binary32.ofWord binary32Value
  simp only [he, hf, h, if_false, sign_bit]
  have hs : (if w.toNat < 2 ^ 31 then (1 : ℚ) else -1) = if decide (2 ^ 31 ≤ w.toNat) = true then -1 else 1 := by
    by_cases hw : 2 ^ 31 ≤ w.toNat
    · rw [if_neg (Nat.not_lt.2 hw), if_pos (decide_eq_true hw)]
    · rw [if_pos (Nat.lt_of_not_le hw), if_neg (by simpa using hw)]
  split
  · rename_i h0
    refine ⟨_, _, _, rfl, by omega, by omega, by omega, .inl rfl, ?_⟩
    rw [hs]; norm_num
  · rename_i h0
    refine ⟨_, _, _, rfl, by omega, by omega, by omega, .inr (by omega), ?_⟩
    rw [hs]


/-- The rounding of FTOX is exact, a half away from zero (R143). -/
theorem roundMagnitude_spec (m e : Nat) (he : 1 ≤ e) : IsRoundedAway ((m : ℚ) * 2 ^ ((e : Int) - 150) * 65536) (roundMagnitude m e) := by
  unfold roundMagnitude
  split
  · rename_i h
    have : (m : ℚ) * 2 ^ ((e : Int) - 150) * 65536 = ((m * 2 ^ (e - 134) : Nat) : ℚ) := by
      obtain ⟨k, rfl⟩ := Nat.exists_eq_add_of_le h
      have e1 : ((134 + k : Nat) : Int) - 150 = (k : Int) + (-16) := by push_cast; ring
      rw [e1, zpow_add₀ (by norm_num)]; push_cast; norm_num; ring
    rw [this]
    constructor
    · push_cast; norm_num
    · push_cast; norm_num
  · rename_i h
    obtain ⟨k, hk⟩ : ∃ k, 134 - e = k := ⟨_, rfl⟩
    have e1 : (e : Int) - 150 = -(k : Int) + (-16) := by omega
    have hp : (0 : ℚ) < 2 ^ k := by positivity
    have this : (m : ℚ) * 2 ^ ((e : Int) - 150) * 65536 = (m : ℚ) / 2 ^ k := by
      rw [e1, zpow_add₀ (by norm_num), zpow_neg, zpow_natCast]; norm_num; field_simp
    rw [this, hk]
    have hq1 := Nat.div_add_mod (2 * m + 2 ^ k) (2 ^ (k + 1))
    have hq2 := Nat.mod_lt (2 * m + 2 ^ k) (show 0 < 2 ^ (k + 1) by positivity)
    generalize (2 * m + 2 ^ k) / 2 ^ (k + 1) = q at *
    generalize (2 * m + 2 ^ k) % 2 ^ (k + 1) = r at *
    have hm : (2 * m + 2 ^ k : ℚ) = 2 ^ k * 2 * q + r := by rw [pow_succ] at hq1; exact_mod_cast hq1.symm
    have hr : (r : ℚ) < 2 ^ k * 2 := by rw [pow_succ] at hq2; exact_mod_cast hq2
    have hr0 : (0 : ℚ) ≤ r := by positivity
    have hm' : (m : ℚ) / 2 ^ k - ((q : Int) : ℚ) = (r - 2 ^ k) / (2 ^ k * 2) := by
      push_cast
      field_simp; linarith
    constructor
    · rw [hm', abs_le]
      constructor
      · rw [le_div_iff₀ (by positivity)]; linarith
      · rw [div_le_iff₀ (by positivity)]; linarith
    · intro ha
      rw [hm'] at ha
      have hneg : (r : ℚ) = 0 := by
        rcases abs_cases ((r - 2 ^ k : ℚ) / (2 ^ k * 2)) with ⟨e, _⟩ | ⟨e, _⟩
        · rw [e, div_eq_iff (by positivity)] at ha; exfalso; linarith
        · rw [e, ← neg_div, div_eq_iff (by positivity)] at ha; linarith
      have : (m : ℚ) / 2 ^ k ≤ q := by rw [div_le_iff₀ hp]; nlinarith
      rw [abs_of_nonneg (by positivity)]
      push_cast
      exact this.trans (le_abs_self _)

theorem isRoundedAway_neg {v : ℚ} {q : Int} (h : IsRoundedAway v q) : IsRoundedAway (-v) (-q) := by
  obtain ⟨a, b⟩ := h
  have e : -v - ((-q : Int) : ℚ) = -(v - q) := by push_cast; ring
  refine ⟨by rw [e, abs_neg]; exact a, fun k => ?_⟩
  rw [e, abs_neg] at k
  rw [abs_neg]; push_cast; rw [abs_neg]; exact b k

/-- `roundNearestEven m k` is the integer nearest to `m / 2^k`, the even one in a tie. -/
theorem roundNearestEven_spec (m k : Nat) (j : Int) :
    |((roundNearestEven m k : Int)) * 2 ^ k - m| ≤ |j * 2 ^ k - m| ∧
      (j ≠ roundNearestEven m k → |((roundNearestEven m k : Int)) * 2 ^ k - m| = |j * 2 ^ k - m| → roundNearestEven m k % 2 = 0) := by
  have h1 := Nat.div_add_mod m (2 ^ k)
  have h2 := Nat.mod_lt m (show 0 < 2 ^ k by positivity)
  unfold roundNearestEven
  simp only
  generalize m / 2 ^ k = q at *
  generalize m % 2 ^ k = r at *
  obtain ⟨p, hp⟩ : ∃ p : Nat, 2 ^ k = p := ⟨_, rfl⟩
  have hp' : (2 : Int) ^ k = p := by rw [← hp]; norm_num
  rw [hp'] ; rw [hp] at h1 h2 ⊢
  have hm : (m : Int) = p * q + r := by rw [← h1]; push_cast; rfl
  have e0 : (q : Int) * p - m = -r := by rw [hm]; ring
  have e1 : ((q + 1 : Nat) : Int) * p - m = p - r := by rw [hm]; push_cast; ring
  have ej : j * p - m = (j - q) * p - r := by rw [hm]; ring
  have cases3 : j = q ∨ j = q + 1 ∨ (j - q) * p ≤ -p ∨ (j - q) * p ≥ 2 * p := by
    by_cases a : j = q; · exact .inl a
    by_cases b : j = q + 1; · exact .inr (.inl b)
    by_cases c : j < q
    · right; right; left; nlinarith
    · right; right; right; have : (2 : Int) ≤ j - q := by omega
      nlinarith
  split
  · rename_i hup
    rw [e1, ej, abs_of_pos (by omega : (0:Int) < p - r)]
    rcases cases3 with rfl | rfl | h | h
    · simp only [sub_self, zero_mul, zero_sub, abs_neg]
      rw [abs_of_nonneg (by omega : (0:Int) ≤ r)]
      refine ⟨by omega, fun _ h => by omega⟩
    · rw [show ((q : Int) + 1 - q) * p - r = p - r by ring, abs_of_pos (by omega : (0:Int) < p - r)]
      refine ⟨le_refl _, fun h => absurd (by push_cast; rfl) h⟩
    · rw [abs_of_neg (by omega)]
      refine ⟨by omega, fun _ h => by omega⟩
    · rw [abs_of_pos (by omega)]
      refine ⟨by omega, fun _ h => by omega⟩
  · rename_i hup
    rw [e0, ej, abs_neg, abs_of_nonneg (by omega : (0:Int) ≤ r)]
    rcases cases3 with rfl | rfl | h | h
    · simp only [sub_self, zero_mul, zero_sub, abs_neg]
      rw [abs_of_nonneg (by omega : (0:Int) ≤ r)]
      exact ⟨le_refl _, fun h => absurd rfl h⟩
    · rw [show ((q : Int) + 1 - q) * p - r = p - r by ring, abs_of_pos (by omega : (0:Int) < p - r)]
      refine ⟨by omega, fun _ h => by omega⟩
    · rw [abs_of_neg (by omega)]
      refine ⟨by omega, fun _ h => by omega⟩
    · rw [abs_of_pos (by omega)]
      refine ⟨by omega, fun _ h => by omega⟩

/-- The 24-bit significand XTOF rounds a magnitude to (R144). -/
def significand (m : Nat) : Nat := if m.log2 ≤ 23 then m * 2 ^ (23 - m.log2) else roundNearestEven m (m.log2 - 23)

theorem roundNearestEven_bounds {m k A B : Nat} (h1 : A * 2 ^ k ≤ m) (h2 : m < B * 2 ^ k) : A ≤ roundNearestEven m k ∧ roundNearestEven m k ≤ B := by
  have hp : 0 < 2 ^ k := by positivity
  have a : A ≤ m / 2 ^ k := (Nat.le_div_iff_mul_le hp).2 h1
  have b : m / 2 ^ k < B := (Nat.div_lt_iff_lt_mul hp).2 h2
  unfold roundNearestEven; simp only; split <;> omega

theorem significand_bounds {m : Nat} (h : 0 < m) : 2 ^ 23 ≤ significand m ∧ significand m ≤ 2 ^ 24 := by
  have h1 : 2 ^ m.log2 ≤ m := Nat.log2_self_le (by omega)
  have h2 : m < 2 ^ (m.log2 + 1) := Nat.lt_log2_self
  unfold significand
  split
  · rename_i hl
    have e1 : 2 ^ m.log2 * 2 ^ (23 - m.log2) = 2 ^ 23 := by rw [← pow_add]; congr 1; omega
    have e2 : 2 ^ (m.log2 + 1) * 2 ^ (23 - m.log2) = 2 ^ 24 := by rw [← pow_add]; congr 1; omega
    rw [← e1, ← e2]
    exact ⟨Nat.mul_le_mul_right _ h1, Nat.mul_le_mul_right _ h2.le⟩
  · rename_i hl
    apply roundNearestEven_bounds
    · rw [← pow_add]; have : 23 + (m.log2 - 23) = m.log2 := by omega
      rw [this]; exact h1
    · rw [← pow_add]; have : 24 + (m.log2 - 23) = m.log2 + 1 := by omega
      rw [this]; exact h2

theorem binary32Magnitude_eq (m : Nat) : binary32Magnitude m = (m.log2 + 111) * 2 ^ 23 + (significand m - 2 ^ 23) := rfl

/-- The value of the word with a sign, an exponent and a significand, a carried one included. -/
theorem value_fields (g : Bool) (E S : Nat) (hE : 1 ≤ E) (hE' : E ≤ 200) (hS : 2 ^ 23 ≤ S) (hS' : S ≤ 2 ^ 24) (w : Word)
    (hw : w.toNat = (if g then 2 ^ 31 else 0) + (E * 2 ^ 23 + (S - 2 ^ 23))) :
    ¬isNaNOrInfinity w ∧ binary32Value w = (if g then -1 else 1) * ((S : ℚ) * 2 ^ ((E : Int) - 150)) ∧ w.toNat % 2 = S % 2 := by
  have hs : (if w.toNat < 2 ^ 31 then (1 : ℚ) else -1) = if g then -1 else 1 := by
    cases g
    · rw [if_pos (by simp at hw; omega)]; rfl
    · rw [if_neg (by simp at hw; omega)]; rfl
  have hmod : w.toNat / 2 ^ 23 % 2 ^ 8 = if S = 2 ^ 24 then E + 1 else E := by
    cases g <;> simp at hw <;> split <;> omega
  have hfr : w.toNat % 2 ^ 23 = if S = 2 ^ 24 then 0 else S - 2 ^ 23 := by
    cases g <;> simp at hw <;> split <;> omega
  refine ⟨?_, ?_, ?_⟩
  · unfold isNaNOrInfinity; rw [hmod]; split <;> omega
  · unfold binary32Value
    simp only [hs, hmod, hfr]
    congr 1
    by_cases h : S = 2 ^ 24
    · simp only [h, if_true]
      rw [if_neg (by omega)]
      have : ((E + 1 : Nat) : Int) - 150 = ((E : Int) - 150) + 1 := by push_cast; ring
      rw [this, zpow_add₀ (by norm_num)]; push_cast; ring
    · simp only [h, if_false]
      rw [if_neg (by omega)]
      have : 2 ^ 23 + (S - 2 ^ 23) = S := by omega
      rw [this]
  · cases g <;> simp at hw <;> omega

/-- The rounded significand gives the value nearest to `m / 65536` of all binary32 values (R144). -/
theorem nearest_core {m : Nat} (hm : 0 < m) (g : Bool) (s e : Nat) (hs : s < 2 ^ 24) (he : 1 ≤ e) :
    let V : ℚ := (significand m : ℚ) * 2 ^ ((m.log2 + 111 : Nat) - 150 : Int)
    let y : ℚ := (if g then -1 else 1) * ((s : ℚ) * 2 ^ ((e : Int) - 150))
    |V - m / 65536| ≤ |y - m / 65536| ∧ (y ≠ V → |V - m / 65536| = |y - m / 65536| → significand m % 2 = 0) := by
  intro V y
  by_cases hl : m.log2 ≤ 23
  · have hV : V = m / 65536 := by
      show (significand m : ℚ) * _ = _
      unfold significand
      rw [if_pos hl]
      have : ((m.log2 + 111 : Nat) - 150 : Int) = -((23 - m.log2 : Nat) : Int) + (-16) := by omega
      rw [this, zpow_add₀ (by norm_num), zpow_neg, zpow_natCast]; push_cast; field_simp; norm_num
    rw [hV]
    refine ⟨by simp, fun h h2 => ?_⟩
    exfalso; apply h
    rw [sub_self, abs_zero] at h2
    have := abs_eq_zero.1 h2.symm
    linarith
  · push Not at hl
    obtain ⟨k, hk⟩ : ∃ k, m.log2 = k + 23 := ⟨m.log2 - 23, by omega⟩
    have hV : V = ((significand m : Int) * 2 ^ k : Int) / 65536 := by
      show (significand m : ℚ) * _ = _
      have : ((m.log2 + 111 : Nat) - 150 : Int) = (k : Int) + (-16) := by omega
      rw [this, zpow_add₀ (by norm_num), zpow_natCast]; push_cast; norm_num; ring
    have hS : significand m = roundNearestEven m k := by
      unfold significand; rw [if_neg (by omega)]; congr 1; omega
    have key : ∀ j : Int, y = (j * 2 ^ k : Int) / 65536 → |V - m / 65536| ≤ |y - m / 65536| ∧ (y ≠ V → |V - m / 65536| = |y - m / 65536| → significand m % 2 = 0) := by
      intro j hj
      obtain ⟨a, b⟩ := roundNearestEven_spec m k j
      rw [← hS] at a b
      have sc : ∀ i : Int, |((i * 2 ^ k : Int) : ℚ) / 65536 - m / 65536| = ((|i * 2 ^ k - m| : Int) : ℚ) / 65536 := by
        intro i
        rw [← sub_div, abs_div, Int.cast_abs]
        push_cast; norm_num
      rw [hV, hj, sc, sc]
      refine ⟨by gcongr, fun h1 h2 => b ?_ ?_⟩
      · rintro rfl; exact h1 rfl
      · have := (div_left_inj' (by norm_num : (65536 : ℚ) ≠ 0)).1 h2
        exact_mod_cast this
    by_cases hek : 134 + k ≤ e
    · obtain ⟨d, rfl⟩ := Nat.exists_eq_add_of_le hek
      apply key ((if g then -1 else 1) * (s * 2 ^ d))
      show (if g then (-1 : ℚ) else 1) * _ = _
      have : ((134 + k + d : Nat) : Int) - 150 = (k : Int) + ((d : Int) + (-16)) := by push_cast; ring
      rw [this, zpow_add₀ (by norm_num), zpow_add₀ (by norm_num), zpow_natCast, zpow_natCast]
      cases g <;> push_cast <;> norm_num <;> ring
    · have h1 : 2 ^ m.log2 ≤ m := Nat.log2_self_le (by omega)
      have hy : y < (2 : ℚ) ^ m.log2 / 65536 := by
        have hb : (s : ℚ) * 2 ^ ((e : Int) - 150) < 2 ^ m.log2 / 65536 := by
          have e1 : (2 : ℚ) ^ m.log2 / 65536 = 2 ^ 24 * 2 ^ ((k : Int) - 17) := by
            rw [hk, sub_eq_add_neg, zpow_add₀ (by norm_num), zpow_natCast, pow_add]; norm_num; ring
          rw [e1]
          have e2 : (2 : ℚ) ^ ((e : Int) - 150) ≤ 2 ^ ((k : Int) - 17) := zpow_le_zpow_right₀ (by norm_num) (by omega)
          have e3 : (s : ℚ) < 2 ^ 24 := by exact_mod_cast hs
          have e4 : (0 : ℚ) < 2 ^ ((k : Int) - 17) := by positivity
          have e5 : (0 : ℚ) ≤ s := by positivity
          calc (s : ℚ) * 2 ^ ((e : Int) - 150) ≤ s * 2 ^ ((k : Int) - 17) := by gcongr
            _ < _ := by gcongr
        show (if g then (-1 : ℚ) else 1) * _ < _
        cases g
        · simpa using hb
        · have : (0 : ℚ) ≤ (s : ℚ) * 2 ^ ((e : Int) - 150) := by positivity
          have : (0 : ℚ) < 2 ^ m.log2 / 65536 := by positivity
          simp; linarith
      obtain ⟨a, _⟩ := roundNearestEven_spec m k (2 ^ 23)
      rw [← hS, show (2 : Int) ^ 23 * 2 ^ k = 2 ^ m.log2 by rw [hk, pow_add]; ring] at a
      have h1' : (2 : ℚ) ^ m.log2 ≤ m := by exact_mod_cast h1
      have hlt : |V - m / 65536| < |y - m / 65536| := by
        have b : |V - m / 65536| ≤ (m - 2 ^ m.log2) / 65536 := by
          have c : |((significand m : Int) : ℚ) * 2 ^ k - m| ≤ |(2 : ℚ) ^ m.log2 - m| := by exact_mod_cast a
          rw [hV, ← sub_div, abs_div, abs_of_pos (by norm_num : (0:ℚ) < 65536)]
          push_cast at c ⊢
          rw [abs_of_nonpos (by linarith : (2 : ℚ) ^ m.log2 - m ≤ 0)] at c
          gcongr; linarith
        have d : |y - m / 65536| ≥ m / 65536 - y := by rw [abs_sub_comm]; exact le_abs_self _
        have : (m - 2 ^ m.log2 : ℚ) / 65536 = m / 65536 - 2 ^ m.log2 / 65536 := by ring
        linarith
      exact ⟨hlt.le, fun _ h => absurd h hlt.ne⟩

end Sys2Proof.Machine
end

