-- ==== Sys2Proof/Laws/Encoding.lean ====
section
/-! SUPPORT. The command word's layout and its fields are inverse to each other, and what the mask test of R77 says of the
fields (30_encoding.md R71-R77). -/

namespace Sys2Proof

theorem toNat_append_add {m n : Nat} (x : BitVec m) (y : BitVec n) : (x ++ y).toNat = x.toNat * 2 ^ n + y.toNat := by
  rw [BitVec.toNat_append, ← Nat.shiftLeft_add_eq_or_of_lt y.isLt, Nat.shiftLeft_eq]

theorem layout_toNat (f : Fields) (op : BitVec 8) :
    (layout f op).toNat = op.toNat + f.rd.val * 2 ^ 8 + f.rs1.val * 2 ^ 12 + f.rs2.val * 2 ^ 16 + f.rs3.val * 2 ^ 20 +
      f.imm8.toNat * 2 ^ 24 := by
  simp only [layout, toNat_append_add, BitVec.toNat_ofFin]
  omega

theorem opOf_toNat (w : Word) : (opOf w).toNat = w.toNat % 2 ^ 8 := by
  simp [opOf, BitVec.extractLsb'_toNat]

@[simp] theorem opOf_layout (f : Fields) (op : BitVec 8) : opOf (layout f op) = op := by
  apply BitVec.eq_of_toNat_eq
  rw [opOf_toNat, layout_toNat]
  have := op.isLt
  omega

@[simp] theorem fieldsOf_layout (f : Fields) (op : BitVec 8) : fieldsOf (layout f op) = f := by
  have h0 := op.isLt
  have h1 := f.rd.isLt
  have h2 := f.rs1.isLt
  have h3 := f.rs2.isLt
  have h4 := f.rs3.isLt
  have h5 := f.imm8.isLt
  obtain ⟨rd, rs1, rs2, rs3, imm8⟩ := f
  have hl := layout_toNat ⟨rd, rs1, rs2, rs3, imm8⟩ op
  simp only at hl h1 h2 h3 h4 h5
  simp only [fieldsOf, Fields.mk.injEq]
  refine ⟨?_, ?_, ?_, ?_, ?_⟩
  · apply Fin.ext
    show (BitVec.toNat _) = _
    rw [BitVec.extractLsb'_toNat, hl, Nat.shiftRight_eq_div_pow]; omega
  · apply Fin.ext
    show (BitVec.toNat _) = _
    rw [BitVec.extractLsb'_toNat, hl, Nat.shiftRight_eq_div_pow]; omega
  · apply Fin.ext
    show (BitVec.toNat _) = _
    rw [BitVec.extractLsb'_toNat, hl, Nat.shiftRight_eq_div_pow]; omega
  · apply Fin.ext
    show (BitVec.toNat _) = _
    rw [BitVec.extractLsb'_toNat, hl, Nat.shiftRight_eq_div_pow]; omega
  · apply BitVec.eq_of_toNat_eq
    rw [BitVec.extractLsb'_toNat, hl, Nat.shiftRight_eq_div_pow]; omega

/-- A word is the layout of its own fields: no bit of it is dropped. -/
theorem layout_fieldsOf (w : Word) : layout (fieldsOf w) (opOf w) = w := by
  apply BitVec.eq_of_toNat_eq
  rw [layout_toNat]
  have hw := w.isLt
  have e : ∀ a : Nat, ∀ b : BitVec 4, b.toFin.val = b.toNat := fun _ _ => rfl
  simp only [fieldsOf, opOf, BitVec.extractLsb'_toNat, Nat.shiftRight_eq_div_pow, BitVec.val_toFin]
  omega

/-- A word is known by its fields. -/
theorem word_eq_iff (w v : Word) : w = v ↔ opOf w = opOf v ∧ fieldsOf w = fieldsOf v := by
  constructor
  · rintro rfl; exact ⟨rfl, rfl⟩
  · rintro ⟨h1, h2⟩
    rw [← layout_fieldsOf w, h1, h2, layout_fieldsOf]

theorem matchOf_eq_layout (op : BitVec 8) : matchOf op = layout ⟨0, 0, 0, 0, 0#8⟩ op := by
  apply BitVec.eq_of_toNat_eq
  rw [layout_toNat]
  have := op.isLt
  simp [matchOf]
  omega

/-- The mask test of a layout, field by field (30_encoding.md R72, R75, R77). -/
theorem layout_and_mask (f : Fields) (op : BitVec 8) (m : Word) (hm : opOf m = 0xFF#8) :
    layout f op &&& m = matchOf op ↔
      BitVec.ofFin (w := 4) f.rd &&& BitVec.ofFin (fieldsOf m).rd = 0#4 ∧
      BitVec.ofFin (w := 4) f.rs1 &&& BitVec.ofFin (fieldsOf m).rs1 = 0#4 ∧
      BitVec.ofFin (w := 4) f.rs2 &&& BitVec.ofFin (fieldsOf m).rs2 = 0#4 ∧
      BitVec.ofFin (w := 4) f.rs3 &&& BitVec.ofFin (fieldsOf m).rs3 = 0#4 ∧
      f.imm8 &&& (fieldsOf m).imm8 = 0#8 := by
  have hf := fieldsOf_layout f op
  have ho := opOf_layout f op
  generalize layout f op = w at hf ho
  subst hf
  rw [word_eq_iff, matchOf_eq_layout, opOf_layout, fieldsOf_layout]
  have hop : opOf (w &&& m) = op := by
    have h : (0xFF#8 : BitVec 8) = BitVec.allOnes 8 := rfl
    rw [opOf, BitVec.extractLsb'_and, ← opOf, ← opOf, hm, ho, h, BitVec.and_allOnes]
  simp only [hop, true_and, fieldsOf, BitVec.extractLsb'_and, Fields.mk.injEq]
  have z : ∀ x : BitVec 4, x.toFin = (0 : Fin 16) ↔ x = 0#4 :=
    fun x => ⟨fun h => BitVec.eq_of_toFin_eq h, fun h => by rw [h]; rfl⟩
  simp only [z]

/-- A shift count of 0 to 31 leaves IMM8[7:5] zero and is read back as SHAMT. -/
theorem shamt_field {n : Nat} (h : n < 32) :
    BitVec.ofNat 8 n &&& 0xE0#8 = 0#8 ∧ ((BitVec.ofNat 8 n).extractLsb' 0 5).toNat = n := by
  have : ∀ k : Fin 32, BitVec.ofNat 8 k.val &&& 0xE0#8 = 0#8 ∧ ((BitVec.ofNat 8 k.val).extractLsb' 0 5).toNat = k.val := by
    decide
  exact this ⟨n, h⟩

/-- A ROM index leaves IMM8[7:3] zero and is read back as KIDX. -/
theorem kidx_field (k : Fin 8) :
    BitVec.ofNat 8 k.val &&& 0xF8#8 = 0#8 ∧ ((BitVec.ofNat 8 k.val).extractLsb' 0 3).toFin = k := by
  revert k
  decide

/-- The decoder on a word given by its fields (30_encoding.md R77). -/
theorem decode_layout (f : Fields) (op : BitVec 8) :
    decode (layout f op) = (match rowOf op with
      | none => .error (.reservedOpcode op)
      | some r => if layout f op &&& r.format.mask ≠ matchOf op then .error (.reservedFieldNotZero op)
        else .ok (r.build f)) := by
  cases h : rowOf op <;> simp only [decode, opOf_layout, fieldsOf_layout, h]

/-- Every command has a row of the map, of its format, which reads its fields back (30_encoding.md R74). -/
theorem rowOf_opcode (i : Instr) :
    ∃ r, rowOf i.opcode = some r ∧ r.format = i.format ∧ (i.wellFormed = true → r.build i.fields = i) := by
  cases i with
  | shli rd rs1 n =>
    refine ⟨_, rfl, rfl, fun h => ?_⟩
    simp only [Instr.wellFormed, shamtInRange, decide_eq_true_eq] at h
    simp only [Instr.fields, Fields.shamt, (shamt_field h).2]
  | shri rd rs1 n =>
    refine ⟨_, rfl, rfl, fun h => ?_⟩
    simp only [Instr.wellFormed, shamtInRange, decide_eq_true_eq] at h
    simp only [Instr.fields, Fields.shamt, (shamt_field h).2]
  | ldc rd k =>
    refine ⟨_, rfl, rfl, fun _ => ?_⟩
    simp only [Instr.fields, Fields.kidx, (kidx_field k).2]
  | _ => exact ⟨_, rfl, rfl, fun _ => rfl⟩

/-- The row of a reserved OP does not exist, and the rows that do are of the commands (30_encoding.md R74, R76). -/
theorem rowOf_some {op : BitVec 8} {r : Row} (h : rowOf op = some r) (f : Fields) :
    (r.build f).opcode = op ∧ (r.build f).format = r.format := by
  unfold rowOf at h
  split at h
  all_goals first
    | (injection h with h; subst h; refine ⟨?_, rfl⟩; apply BitVec.eq_of_toNat_eq; rename_i e; rw [e]; rfl)
    | cases h

end Sys2Proof
end

