-- ==== Sys2Proof/Laws/FixedPoint.lean ====
section
/-! SUPPORT. The arithmetic of the rules in the terms of the claims: rounding to nearest, truncated division, exact roots
(40_alu.md, 42_aux.md, 43_sqrt.md, 45_invtrig.md). -/

namespace Sys2Proof.Machine

/-- The truncated division of the model is the one of R9. -/
theorem isTruncatedDivision_tdiv (n d : Int) (hd : d ≠ 0) : IsTruncatedDivision n d (tdiv n d) (trem n d) := by
  refine ⟨by simp only [trem]; ring, ?_, ?_⟩
  · rw [trem_eq, Int.abs_eq_natAbs, Int.abs_eq_natAbs, Int.natAbs_tmod]
    exact_mod_cast Nat.mod_lt _ (Int.natAbs_pos.2 hd)
  · rw [trem_eq]
    rcases lt_trichotomy n 0 with h | h | h
    · have : Int.tmod n d ≤ 0 := by
        have := Int.tmod_nonneg d (a := -n) (by omega)
        rw [Int.neg_tmod] at this; omega
      omega
    · subst h; simp
    · have := Int.tmod_nonneg d (a := n) (by omega)
      omega

/-- Rounding the magnitude half up and restoring the sign is rounding to nearest, halves away from zero (R104, R155). -/
theorem isNearestAway_magnitude (n : Int) : IsNearestAway n 65536 (sgn n * asr (mag n + 0x8000) 16) := by
  have key : ∀ m : Int, 0 ≤ m → IsNearestAway m 65536 ((m + 32768) / 65536) := by
    intro m hm
    have h1 := Int.emod_nonneg (m + 32768) (b := 65536) (by norm_num)
    have h2 := Int.emod_lt_of_pos (m + 32768) (b := 65536) (by norm_num)
    have h3 := Int.mul_ediv_add_emod (m + 32768) 65536
    generalize (m + 32768) / 65536 = q at *
    generalize (m + 32768) % 65536 = r at *
    constructor
    · rcases abs_cases (m - q * 65536) with ⟨e, _⟩ | ⟨e, _⟩ <;> rw [e] <;> omega
    · intro h
      rw [abs_of_nonneg hm]
      rcases abs_cases (m - q * 65536) with ⟨e, _⟩ | ⟨e, _⟩ <;> rw [e] at h
      · omega
      · have : m ≤ q * 65536 := by omega
        exact le_trans this (le_abs_self _)
  have e : ∀ v : Int, asr v 16 = v / 65536 := fun v => by norm_num [asr]
  rw [e]
  rcases lt_trichotomy n 0 with h | h | h
  · have k := key (-n) (by omega)
    have hs : sgn n = -1 := by simp [sgn, h]
    have hm : (mag n : Int) = -n := by simp only [mag]; omega
    rw [hs, hm]
    obtain ⟨a, b⟩ := k
    have e1 : n - -1 * ((-n + 32768) / 65536) * 65536 = -(-n - (-n + 32768) / 65536 * 65536) := by ring
    have e2 : -1 * ((-n + 32768) / 65536) * 65536 = -((-n + 32768) / 65536 * 65536) := by ring
    refine ⟨?_, ?_⟩
    · rw [show (0x8000 : Int) = 32768 from rfl, e1, abs_neg]; exact a
    · rw [show (0x8000 : Int) = 32768 from rfl, e1, abs_neg, e2, abs_neg]
      intro h; have := b h; rwa [abs_neg] at this
  · subst h
    refine ⟨?_, ?_⟩ <;> simp [sgn, mag]
  · have k := key n (by omega)
    have hs : sgn n = 1 := by unfold sgn; rw [if_neg (by omega), if_neg (by omega)]
    have hm : (mag n : Int) = n := by simp only [mag]; omega
    rw [hs, hm, one_mul]
    exact k

/-- Everything fxMUL can answer (R104). -/
theorem fxMUL_eq (a b : Int) :
    fxMUL a b = if (-2 ^ 47 ≤ a * b ∧ a * b ≤ 2 ^ 47 - 1) ∧ fits32 (sgn (a * b) * asr (mag (a * b) + 0x8000) 16) then
      .ok (sgn (a * b) * asr (mag (a * b) + 0x8000) 16) else .error .overflow := by
  unfold fxMUL
  simp only
  by_cases h : -2 ^ 47 ≤ a * b ∧ a * b ≤ 2 ^ 47 - 1
  · by_cases h2 : fits32 (sgn (a * b) * asr (mag (a * b) + 0x8000) 16)
    · rw [if_neg (not_not.2 h), if_neg (not_not.2 h2), if_pos ⟨h, h2⟩]
    · rw [if_neg (not_not.2 h), if_pos h2, if_neg (fun k => h2 k.2)]
  · rw [if_pos h, if_neg (fun k => h k.1)]

/-- Everything fxDIV can answer (R106). -/
theorem fxDIV_eq (a b : Int) :
    fxDIV a b = if b = 0 then .error .divideByZero
      else if fits32 (tdiv (a * 65536) b) then .ok (tdiv (a * 65536) b) else .error .overflow := by
  unfold fxDIV
  norm_num only
  by_cases hb : b = 0
  · simp [hb]
  · simp only [hb, if_false]
    by_cases h : fits32 (tdiv (a * 65536) b)
    · rw [if_neg (not_not.2 h), if_pos h]
    · rw [if_pos h, if_neg h]

theorem fxDIV_error {a b : Int} {c : Cause} (h : fxDIV a b = .error c) : c = .overflow ∨ c = .divideByZero := by
  rw [fxDIV_eq] at h
  split at h
  · cases h; exact .inr rfl
  · split at h <;> cases h
    exact .inl rfl

/-- The root of R170 as a natural number. -/
theorem isRoot_isqrt (n : Nat) : IsRoot n (isqrt n) := isqrt_spec n

/-- The quotient of R200 inside (-1, 1), and that no step of it faults (R201, R202). -/
theorem fxASIN_inside {x : Int} (h1 : -65536 < x) (h2 : x < 65536) :
    ∃ t u s q : Int, fxMUL x x = .ok t ∧ IsNearestAway (x * x) 65536 t ∧ u = 65536 - t ∧ 2 ≤ u ∧ u ≤ 65536 ∧
      s = isqrt (u.toNat * 65536) ∧ 362 ≤ s ∧ q = tdiv (x * 65536) s ∧ fits32 q ∧ fxASIN x = .ok (atanFn q) := by
  have hp0 : 0 ≤ x * x := mul_self_nonneg x
  have hp1 : x * x ≤ 65535 * 65535 := by nlinarith
  have hn := isNearestAway_magnitude (x * x)
  set t := sgn (x * x) * asr (mag (x * x) + 0x8000) 16 with ht
  have ht' : t = (x * x + 32768) / 65536 := by
    rw [ht]
    have hm : (mag (x * x) : Int) = x * x := by simp only [mag]; omega
    rw [hm]
    by_cases h0 : x * x = 0
    · rw [h0]; decide
    · have : sgn (x * x) = 1 := by unfold sgn; rw [if_neg (by omega), if_neg h0]
      rw [this, one_mul]; norm_num [asr]
  have htr : 0 ≤ t ∧ t ≤ 65534 := by omega
  have hmul : fxMUL x x = .ok t := by
    rw [fxMUL_eq, if_pos]
    refine ⟨⟨by norm_num; omega, by norm_num; omega⟩, ?_⟩
    rw [← ht]
    constructor <;> norm_num <;> omega
  have hsub : fxSUB one t = .ok (65536 - t) := by
    rw [fxSUB_eq (by decide) (by constructor <;> norm_num <;> omega), if_pos]
    constructor <;> norm_num <;> omega
  have hroot := isqrt_spec ((65536 - t).toNat * 65536)
  have hsq : fxSQRT (65536 - t) = (isqrt ((65536 - t).toNat * 65536) : Int) := by
    have hs : sgn (65536 - t) = 1 := by unfold sgn; rw [if_neg (by omega), if_neg (by omega)]
    have hm : mag (65536 - t) = (65536 - t).toNat := by simp only [mag]; omega
    rw [fxSQRT, hs, hm]; norm_num
  have hs362 : 362 ≤ isqrt ((65536 - t).toNat * 65536) := by
    by_contra hlt
    have hu : 2 ≤ (65536 - t).toNat := by omega
    have : (isqrt ((65536 - t).toNat * 65536) + 1) * (isqrt ((65536 - t).toNat * 65536) + 1) ≤ 362 * 362 :=
      Nat.mul_le_mul (by omega) (by omega)
    omega
  set s : Int := (isqrt ((65536 - t).toNat * 65536) : Int) with hs
  have hs' : (362 : Int) ≤ s := by rw [hs]; exact_mod_cast hs362
  have hq : fits32 (tdiv (x * 65536) s) := by
    have hb : |tdiv (x * 65536) s| ≤ |x * 65536| := by
      simp only [tdiv, Int.abs_eq_natAbs, Int.natAbs_tdiv]
      exact_mod_cast Nat.div_le_self _ _
    have hd := (isTruncatedDivision_tdiv (x * 65536) s (by omega))
    obtain ⟨e, hr, hsg⟩ := hd
    set q := tdiv (x * 65536) s
    set r := trem (x * 65536) s
    rw [abs_of_pos (by omega : (0 : Int) < s)] at hr
    rw [abs_lt] at hr
    constructor
    · norm_num
      by_contra hlt
      push Not at hlt
      nlinarith
    · norm_num
      by_contra hlt
      push Not at hlt
      nlinarith
  refine ⟨t, 65536 - t, s, tdiv (x * 65536) s, hmul, hn, rfl, by omega, by omega, rfl, hs', rfl, hq, ?_⟩
  unfold fxASIN
  have o1 : ¬outsideOne x = true := by simp only [outsideOne, one, decide_eq_true_eq]; omega
  have o2 : ¬x = one := by simp only [one]; omega
  have o3 : ¬x = -one := by simp only [one]; omega
  rw [if_neg o1, if_neg o2, if_neg o3]
  simp only [hmul, hsub, hsq, bind, Except.bind, fxDIV_eq]
  rw [if_neg (by omega), if_pos hq]

/-- ASIN never faults (R201). -/
theorem fxASIN_ok (x : Int) : ∃ v, fxASIN x = .ok v := by
  by_cases h : outsideOne x = true
  · exact ⟨0, by simp [fxASIN, h]⟩
  · have h' : ¬(x > 65536 ∨ x < -65536) := by simpa [outsideOne] using h
    by_cases h1 : x = 65536
    · exact ⟨102943, by subst h1; decide⟩
    · by_cases h2 : x = -65536
      · exact ⟨-102943, by subst h2; decide⟩
      · obtain ⟨_, _, _, q, _, _, _, _, _, _, _, _, _, e⟩ := fxASIN_inside (x := x) (by omega) (by omega)
        exact ⟨_, e⟩

theorem fxACOS_error {x : Int} {c : Cause} (h : fxACOS x = .error c) : c = .overflow := by
  obtain ⟨v, hv⟩ := fxASIN_ok x
  simp only [fxACOS, hv, bind, Except.bind] at h
  exact fxSUB_error h

theorem fxFTOX_error {w : Word} {c : Cause} (h : fxFTOX w = .error c) : c = .overflow := by
  unfold fxFTOX at h
  split at h
  · cases h; rfl
  · cases h; rfl
  · rename_i negative significand exponent _
    simp only at h
    generalize (if negative = true then -(roundMagnitude significand exponent : Int)
      else (roundMagnitude significand exponent : Int)) = q at h
    split at h <;> cases h
    rfl

theorem word_ends : word (2 ^ 31 - 1) = 0x7FFFFFFF#32 ∧ word (-2 ^ 31) = 0x80000000#32 ∧ word 0 = 0#32 := by decide

theorem word_saturated (a : Int) : word (if a > 0 then 2 ^ 31 - 1 else if a < 0 then -2 ^ 31 else 0) =
    if 0 < a then 0x7FFFFFFF#32 else if a < 0 then 0x80000000#32 else 0#32 := by
  split
  · exact word_ends.1
  · split
    · exact word_ends.2.1
    · exact word_ends.2.2

/-- The three cases of the saturating quotient (R108). -/
theorem fxSDIV_cases (a b : Int) (h : b ≠ 0) :
   let q := tdiv (a * 2 ^ 16) b
   (fits32 q → fxSDIV a b = q) ∧ (2 ^ 31 - 1 < q → fxSDIV a b = 2 ^ 31 - 1) ∧ (q < -2 ^ 31 → fxSDIV a b = -2 ^ 31) := by
  simp only [fxSDIV, if_neg h]
  refine ⟨fun ⟨h1, h2⟩ => ?_, fun h1 => ?_, fun h1 => ?_⟩
  · rw [max_eq_left h1, min_eq_left h2]
  · rw [max_eq_left (by norm_num at *; omega), min_eq_right (by omega)]
  · rw [max_eq_right (by omega), min_eq_left (by norm_num)]

/-- Clearing the low 16 bits is rounding toward negative infinity (R152). -/
theorem floorWord_eq (w : Word) : floorWord w = word (s32 w / 65536 * 65536) := by
  apply BitVec.eq_of_toNat_eq
  have h1 : (floorWord w).toNat = w.toNat / 65536 * 65536 := by
    have : floorWord w = (w >>> 16) <<< 16 := by
      apply BitVec.eq_of_getLsbD_eq
      intro k hk
      have : (0xFFFF0000#32).getLsbD k = decide (16 ≤ k) := by interval_cases k <;> rfl
      rw [floorWord, BitVec.getLsbD_and, this, BitVec.getLsbD_shiftLeft, BitVec.getLsbD_ushiftRight]
      by_cases h : 16 ≤ k
      · simp [hk, h, show ¬ k < 16 by omega]
      · simp [hk, h]
    rw [this, BitVec.toNat_shiftLeft, BitVec.toNat_ushiftRight, Nat.shiftLeft_eq, Nat.shiftRight_eq_div_pow]
    have := w.isLt
    omega
  rw [h1, word, BitVec.toNat_ofInt, s32_eq]
  have := w.isLt
  split <;> norm_num <;> omega

/-- The rounding of R104 and R155 by the sign of its operand. -/
theorem sgn_mul_asr (a : Int) : sgn a * asr (mag a + 0x8000) 16 = if a < 0 then -((-a + 32768) / 65536) else (a + 32768) / 65536 := by
  have h2 : ∀ a : Int, asr a 16 = a / 65536 := fun a => by norm_num [asr]
  rw [h2, sgn, mag]
  split
  · have : (a.natAbs : Int) = -a := by omega
    rw [this]; ring_nf
  · split
    · subst_vars; decide
    · have : (a.natAbs : Int) = a := by omega
      rw [this]; norm_num

theorem fxASIN_outside {x : Int} (h : x > 65536 ∨ x < -65536) : outsideOne x = true ∧ fxASIN x = .ok 0 := by
  have : outsideOne x = true := by simpa [outsideOne] using h
  exact ⟨this, by rw [fxASIN, if_pos this]⟩

theorem outsideOne_iff (x : Int) : (x > 65536 ∨ x < -65536) ↔ outsideOne x = true := by simp [outsideOne]

theorem reduce_unique {x r : Int} (h : IsReduced x r) : r = reduce x := by
  obtain ⟨h1, h2, k, hk⟩ := h
  obtain ⟨h3, h4, j, hj⟩ := reduce_spec x
  omega

end Sys2Proof.Machine
end

