-- ==== Sys2Proof/Laws/State.lean ====
section
/-! SUPPORT. One lemma per field per update of State, so that no proof unfolds a record update, and the laws of reading
a register or a STATUS bit after each update. -/

namespace Sys2Proof.Machine

/-! ### Bits of a word -/

theorem getLsbD_withBit (w : Word) (n k : Nat) (v : Bool) (hn : n < 32) :
    (withBit w n v).getLsbD k = if k = n then v else w.getLsbD k := by
  unfold withBit
  by_cases hk : k = n
  · subst hk
    cases v <;> simp [hn]
  · by_cases h32 : k < 32
    · cases v <;> by_cases hlt : k < n <;> simp [hk, h32, hlt]
      · intro; omega
      · intro; omega
    · have hw : w.getLsbD k = false := BitVec.getLsbD_of_ge _ _ (by omega)
      cases v <;> simp [h32, hk, hw]

theorem StatusBit.pos_lt (b : StatusBit) : b.pos < 32 := by cases b <;> decide

theorem StatusBit.pos_inj {b c : StatusBit} : b.pos = c.pos ↔ b = c := by cases b <;> cases c <;> decide

/-! ### Fields of State after an update -/

@[simp] theorem State.setReg_status (s : State) (i : Reg) (w : Word) : (s.setReg i w).status = s.status := rfl
@[simp] theorem State.setReg_cause (s : State) (i : Reg) (w : Word) : (s.setReg i w).cause = s.cause := rfl
@[simp] theorem State.setReg_faultcmd (s : State) (i : Reg) (w : Word) : (s.setReg i w).faultcmd = s.faultcmd := rfl
@[simp] theorem State.setReg_irqen (s : State) (i : Reg) (w : Word) : (s.setReg i w).irqen = s.irqen := rfl
@[simp] theorem State.setReg_resets (s : State) (i : Reg) (w : Word) : (s.setReg i w).resets = s.resets := rfl
@[simp] theorem State.setReg_inputs (s : State) (i : Reg) (w : Word) : (s.setReg i w).inputs = s.inputs := rfl
@[simp] theorem State.setReg_answer (s : State) (i : Reg) (w : Word) : (s.setReg i w).answer = s.answer := rfl
@[simp] theorem State.setReg_f (s : State) (i : Reg) (w : Word) : (s.setReg i w).f = s.f.set i w := rfl

@[simp] theorem State.setFlag_f (s : State) (b : StatusBit) (v : Bool) : (s.setFlag b v).f = s.f := rfl
@[simp] theorem State.setFlag_cause (s : State) (b : StatusBit) (v : Bool) : (s.setFlag b v).cause = s.cause := rfl
@[simp] theorem State.setFlag_faultcmd (s : State) (b : StatusBit) (v : Bool) : (s.setFlag b v).faultcmd = s.faultcmd := rfl
@[simp] theorem State.setFlag_irqen (s : State) (b : StatusBit) (v : Bool) : (s.setFlag b v).irqen = s.irqen := rfl
@[simp] theorem State.setFlag_resets (s : State) (b : StatusBit) (v : Bool) : (s.setFlag b v).resets = s.resets := rfl
@[simp] theorem State.setFlag_inputs (s : State) (b : StatusBit) (v : Bool) : (s.setFlag b v).inputs = s.inputs := rfl
@[simp] theorem State.setFlag_answer (s : State) (b : StatusBit) (v : Bool) : (s.setFlag b v).answer = s.answer := rfl
@[simp] theorem State.setFlag_status (s : State) (b : StatusBit) (v : Bool) :
    (s.setFlag b v).status = withBit s.status b.pos v := rfl

@[simp] theorem State.raiseFlag_f (s : State) (b : StatusBit) (c : Bool) : (s.raiseFlag b c).f = s.f := by
  cases c <;> rfl
@[simp] theorem State.raiseFlag_cause (s : State) (b : StatusBit) (c : Bool) : (s.raiseFlag b c).cause = s.cause := by
  cases c <;> rfl
@[simp] theorem State.raiseFlag_faultcmd (s : State) (b : StatusBit) (c : Bool) : (s.raiseFlag b c).faultcmd = s.faultcmd := by
  cases c <;> rfl
@[simp] theorem State.raiseFlag_irqen (s : State) (b : StatusBit) (c : Bool) : (s.raiseFlag b c).irqen = s.irqen := by
  cases c <;> rfl
@[simp] theorem State.raiseFlag_resets (s : State) (b : StatusBit) (c : Bool) : (s.raiseFlag b c).resets = s.resets := by
  cases c <;> rfl
@[simp] theorem State.raiseFlag_inputs (s : State) (b : StatusBit) (c : Bool) : (s.raiseFlag b c).inputs = s.inputs := by
  cases c <;> rfl
@[simp] theorem State.raiseFlag_answer (s : State) (b : StatusBit) (c : Bool) : (s.raiseFlag b c).answer = s.answer := by
  cases c <;> rfl

@[simp] theorem State.setCompare_f (s : State) (c : Ordering) : (s.setCompare c).f = s.f := rfl
@[simp] theorem State.setCompare_cause (s : State) (c : Ordering) : (s.setCompare c).cause = s.cause := rfl
@[simp] theorem State.setCompare_faultcmd (s : State) (c : Ordering) : (s.setCompare c).faultcmd = s.faultcmd := rfl
@[simp] theorem State.setCompare_irqen (s : State) (c : Ordering) : (s.setCompare c).irqen = s.irqen := rfl
@[simp] theorem State.setCompare_resets (s : State) (c : Ordering) : (s.setCompare c).resets = s.resets := rfl
@[simp] theorem State.setCompare_inputs (s : State) (c : Ordering) : (s.setCompare c).inputs = s.inputs := rfl
@[simp] theorem State.setCompare_answer (s : State) (c : Ordering) : (s.setCompare c).answer = s.answer := rfl

@[simp] theorem State.takeFault_f (s : State) (c : Cause) (w : Word) : (s.takeFault c w).f = s.f := rfl
@[simp] theorem State.takeFault_irqen (s : State) (c : Cause) (w : Word) : (s.takeFault c w).irqen = s.irqen := rfl
@[simp] theorem State.takeFault_resets (s : State) (c : Cause) (w : Word) : (s.takeFault c w).resets = s.resets := rfl
@[simp] theorem State.takeFault_inputs (s : State) (c : Cause) (w : Word) : (s.takeFault c w).inputs = s.inputs := rfl
@[simp] theorem State.takeFault_answer (s : State) (c : Cause) (w : Word) : (s.takeFault c w).answer = s.answer := rfl
@[simp] theorem State.takeFault_cause (s : State) (c : Cause) (w : Word) : (s.takeFault c w).cause = c.code := rfl
@[simp] theorem State.takeFault_faultcmd (s : State) (c : Cause) (w : Word) : (s.takeFault c w).faultcmd = w := rfl

@[simp] theorem State.endFault_f (s : State) : (s.endFault).f = s.f := rfl
@[simp] theorem State.endFault_irqen (s : State) : (s.endFault).irqen = s.irqen := rfl
@[simp] theorem State.endFault_resets (s : State) : (s.endFault).resets = s.resets := rfl
@[simp] theorem State.endFault_inputs (s : State) : (s.endFault).inputs = s.inputs := rfl
@[simp] theorem State.endFault_answer (s : State) : (s.endFault).answer = s.answer := rfl
@[simp] theorem State.endFault_cause (s : State) : s.endFault.cause = 0#8 := rfl
@[simp] theorem State.endFault_faultcmd (s : State) : s.endFault.faultcmd = 0#32 := rfl

@[simp] theorem State.clearWhereOne_f (s : State) (w : Word) (b : StatusBit) : (s.clearWhereOne w b).f = s.f := by
  unfold State.clearWhereOne; split <;> rfl
@[simp] theorem State.clearWhereOne_cause (s : State) (w : Word) (b : StatusBit) : (s.clearWhereOne w b).cause = s.cause := by
  unfold State.clearWhereOne; split <;> rfl
@[simp] theorem State.clearWhereOne_faultcmd (s : State) (w : Word) (b : StatusBit) : (s.clearWhereOne w b).faultcmd = s.faultcmd := by
  unfold State.clearWhereOne; split <;> rfl
@[simp] theorem State.clearWhereOne_irqen (s : State) (w : Word) (b : StatusBit) : (s.clearWhereOne w b).irqen = s.irqen := by
  unfold State.clearWhereOne; split <;> rfl
@[simp] theorem State.clearWhereOne_resets (s : State) (w : Word) (b : StatusBit) : (s.clearWhereOne w b).resets = s.resets := by
  unfold State.clearWhereOne; split <;> rfl
@[simp] theorem State.clearWhereOne_inputs (s : State) (w : Word) (b : StatusBit) : (s.clearWhereOne w b).inputs = s.inputs := by
  unfold State.clearWhereOne; split <;> rfl
@[simp] theorem State.clearWhereOne_answer (s : State) (w : Word) (b : StatusBit) : (s.clearWhereOne w b).answer = s.answer := by
  unfold State.clearWhereOne; split <;> rfl

@[simp] theorem State.writeStatus_f (s : State) (w : Word) : (s.writeStatus w).f = s.f := by
  unfold State.writeStatus; split <;> simp
@[simp] theorem State.writeStatus_irqen (s : State) (w : Word) : (s.writeStatus w).irqen = s.irqen := by
  unfold State.writeStatus; split <;> simp
@[simp] theorem State.writeStatus_resets (s : State) (w : Word) : (s.writeStatus w).resets = s.resets := by
  unfold State.writeStatus; split <;> simp
@[simp] theorem State.writeStatus_inputs (s : State) (w : Word) : (s.writeStatus w).inputs = s.inputs := by
  unfold State.writeStatus; split <;> simp
@[simp] theorem State.writeStatus_answer (s : State) (w : Word) : (s.writeStatus w).answer = s.answer := by
  unfold State.writeStatus; split <;> simp

@[simp] theorem State.writeCtrl_f (s : State) (w : Word) : (s.writeCtrl w).f = s.f := rfl
@[simp] theorem State.writeCtrl_status (s : State) (w : Word) : (s.writeCtrl w).status = s.status := rfl
@[simp] theorem State.writeCtrl_cause (s : State) (w : Word) : (s.writeCtrl w).cause = s.cause := rfl
@[simp] theorem State.writeCtrl_faultcmd (s : State) (w : Word) : (s.writeCtrl w).faultcmd = s.faultcmd := rfl
@[simp] theorem State.writeCtrl_resets (s : State) (w : Word) : (s.writeCtrl w).resets = s.resets := rfl
@[simp] theorem State.writeCtrl_inputs (s : State) (w : Word) : (s.writeCtrl w).inputs = s.inputs := rfl
@[simp] theorem State.writeCtrl_answer (s : State) (w : Word) : (s.writeCtrl w).answer = s.answer := rfl
@[simp] theorem State.writeCtrl_irqen (s : State) (w : Word) : (s.writeCtrl w).irqen = w.getLsbD 0 := rfl

/-! ### A register after an update -/

theorem State.reg_setReg (s : State) (i j : Reg) (w : Word) :
    (s.setReg i w).reg j = if j = i then w else s.reg j := by
  simp only [State.reg, State.setReg_f, Fin.getElem_fin, Vector.getElem_set, eq_comm, Fin.ext_iff]

@[simp] theorem State.reg_setReg_same (s : State) (i : Reg) (w : Word) : (s.setReg i w).reg i = w := by
  simp [State.reg_setReg]

@[simp] theorem State.reg_setFlag (s : State) (b : StatusBit) (v : Bool) (i : Reg) : (s.setFlag b v).reg i = s.reg i := by
  simp [State.reg]

@[simp] theorem State.reg_raiseFlag (s : State) (b : StatusBit) (c : Bool) (i : Reg) : (s.raiseFlag b c).reg i = s.reg i := by
  simp [State.reg]

@[simp] theorem State.reg_setCompare (s : State) (c : Ordering) (i : Reg) : (s.setCompare c).reg i = s.reg i := by
  simp [State.reg]

@[simp] theorem State.reg_takeFault (s : State) (c : Cause) (w : Word) (i : Reg) : (s.takeFault c w).reg i = s.reg i := by
  simp [State.reg]

@[simp] theorem State.reg_endFault (s : State) (i : Reg) : (s.endFault).reg i = s.reg i := by
  simp [State.reg]

@[simp] theorem State.reg_clearWhereOne (s : State) (w : Word) (b : StatusBit) (i : Reg) : (s.clearWhereOne w b).reg i = s.reg i := by
  simp [State.reg]

@[simp] theorem State.reg_writeStatus (s : State) (w : Word) (i : Reg) : (s.writeStatus w).reg i = s.reg i := by
  simp [State.reg]

@[simp] theorem State.reg_writeCtrl (s : State) (w : Word) (i : Reg) : (s.writeCtrl w).reg i = s.reg i := by
  simp [State.reg]

/-! ### A STATUS bit after an update -/

theorem State.flag_setFlag (s : State) (b c : StatusBit) (v : Bool) :
    (s.setFlag b v).flag c = if c = b then v else s.flag c := by
  simp [State.flag, getLsbD_withBit _ _ _ _ b.pos_lt, StatusBit.pos_inj]

@[simp] theorem State.flag_setReg (s : State) (i : Reg) (w : Word) (b : StatusBit) :
    (s.setReg i w).flag b = s.flag b := rfl

@[simp] theorem State.flag_writeCtrl (s : State) (w : Word) (b : StatusBit) :
    (s.writeCtrl w).flag b = s.flag b := rfl

theorem State.flag_raiseFlag (s : State) (b c : StatusBit) (v : Bool) :
    (s.raiseFlag b v).flag c = if c = b then s.flag b || v else s.flag c := by
  cases v
  · by_cases h : c = b <;> simp [State.raiseFlag, h]
  · simp [State.raiseFlag, State.flag_setFlag]

theorem State.flag_setCompare (s : State) (o : Ordering) (c : StatusBit) :
    (s.setCompare o).flag c =
      if c = .gt then o == .gt else if c = .eq then o == .eq else if c = .lt then o == .lt else s.flag c := by
  simp only [State.setCompare, State.flag_setFlag]

theorem State.flag_takeFault (s : State) (c : Cause) (w : Word) (b : StatusBit) :
    (s.takeFault c w).flag b = if b = c.sticky then true else if b = .fault then true else s.flag b := by
  show ((s.setFlag .fault true).setFlag c.sticky true).flag b = _
  simp only [State.flag_setFlag]

theorem State.flag_endFault (s : State) (b : StatusBit) :
    s.endFault.flag b = if b = .fault then false else s.flag b := by
  show (s.setFlag .fault false).flag b = _
  simp only [State.flag_setFlag]

theorem State.flag_clearWhereOne (s : State) (w : Word) (b c : StatusBit) :
    (s.clearWhereOne w b).flag c = if c = b then s.flag b && !w.getLsbD b.pos else s.flag c := by
  unfold State.clearWhereOne
  split
  · rename_i h
    simp [State.flag_setFlag, h]
  · rename_i h
    by_cases hc : c = b <;> simp [hc, h]

/-! ### STATUS as a word after an update -/

theorem State.status_takeFault (s : State) (c : Cause) (w : Word) :
    (s.takeFault c w).status = s.status ||| (match c with
      | .overflow => 0x3#32
      | .divideByZero => 0x5#32
      | .illegalCommand => 0x9#32) := by
  cases c <;> simp [State.takeFault, Cause.sticky, StatusBit.pos, withBit, BitVec.or_assoc]

theorem State.status_raiseDom (s : State) (v : Bool) :
    (s.raiseFlag .dom v).status = if v then s.status ||| 0x10#32 else s.status := by
  cases v <;> simp [State.raiseFlag, StatusBit.pos, withBit]

/-! ### STATUS bit by bit after an update -/

theorem State.getLsbD_clearWhereOne (s : State) (w : Word) (b : StatusBit) (k : Nat) :
    (s.clearWhereOne w b).status.getLsbD k = (s.status.getLsbD k && !(decide (k = b.pos) && w.getLsbD k)) := by
  unfold State.clearWhereOne
  split
  · rename_i h
    by_cases hk : k = b.pos
    · subst hk; simp [getLsbD_withBit _ _ _ _ b.pos_lt, h]
    · simp [getLsbD_withBit _ _ _ _ b.pos_lt, hk]
  · rename_i h
    by_cases hk : k = b.pos
    · subst hk; simp [h]
    · simp [hk]

theorem State.status_endFault (s : State) : s.endFault.status = withBit s.status 0 false := rfl

/-- The first half of a STATUS write: FAULT is cleared where bit 0 is written 1 (10_state.md R26). -/
theorem State.getLsbD_acknowledge (s : State) (w : Word) (k : Nat) :
    (if w.getLsbD StatusBit.fault.pos then s.endFault else s).status.getLsbD k =
      (s.status.getLsbD k && !(decide (k = 0) && w.getLsbD k)) := by
  cases h : w.getLsbD StatusBit.fault.pos
  · by_cases hk : k = 0
    · subst hk; rw [show w.getLsbD 0 = false from h]; simp
    · simp [hk]
  · rw [if_pos rfl, status_endFault, getLsbD_withBit _ _ _ _ (by decide)]
    by_cases hk : k = 0
    · subst hk; rw [show w.getLsbD 0 = true from h]; simp
    · simp [hk]

/-- A STATUS write clears the bits 0 to 5 written 1 and no other (10_state.md R26). -/
theorem State.getLsbD_writeStatus (s : State) (w : Word) (k : Nat) :
    (s.writeStatus w).status.getLsbD k = (s.status.getLsbD k && !(decide (k < 6) && w.getLsbD k)) := by
  simp only [State.writeStatus, State.getLsbD_clearWhereOne, State.getLsbD_acknowledge]
  generalize s.status.getLsbD k = a
  generalize w.getLsbD k = b
  by_cases hk : k < 6
  · interval_cases k <;> simp [StatusBit.pos]
  · have : ∀ j, j < 6 → ¬ k = j := by intros; omega
    simp [StatusBit.pos, hk, this]

theorem State.status_writeStatus (s : State) (w : Word) : (s.writeStatus w).status = s.status &&& ~~~(w &&& 0x0000003F#32) := by
  apply BitVec.eq_of_getLsbD_eq
  intro k hk
  have : (0x3F#32).getLsbD k = decide (k < 6) := by interval_cases k <;> rfl
  rw [State.getLsbD_writeStatus, BitVec.getLsbD_and, BitVec.getLsbD_not, BitVec.getLsbD_and, this]
  simp only [hk, decide_true, Bool.true_and, Bool.and_comm]

theorem State.getLsbD_raiseDom (s : State) (v : Bool) (k : Nat) (hk : k ≠ 4) : (s.raiseFlag .dom v).status.getLsbD k = s.status.getLsbD k := by
  cases v
  · rfl
  · show (withBit _ _ _).getLsbD k = _
    rw [getLsbD_withBit _ _ _ _ (by decide)]; exact if_neg hk

theorem State.getLsbD_setCompare (s : State) (o : Ordering) (k : Nat) : (s.setCompare o).status.getLsbD k =
    if k = 10 then o == .gt else if k = 9 then o == .eq else if k = 8 then o == .lt else s.status.getLsbD k := by
  simp only [State.setCompare, State.setFlag_status, StatusBit.pos]
  rw [getLsbD_withBit _ _ _ _ (by decide), getLsbD_withBit _ _ _ _ (by decide), getLsbD_withBit _ _ _ _ (by decide)]

/-! ### The comparison of two states -/

theorem State.ext_fields {s t : State} (hf : s.f = t.f) (h1 : s.status = t.status) (h2 : s.cause = t.cause)
    (h3 : s.faultcmd = t.faultcmd) (h4 : s.irqen = t.irqen) (h5 : s.resets = t.resets) (h6 : s.inputs = t.inputs)
    (h7 : s.answer = t.answer) : s = t := by
  cases s; cases t; simp_all

end Sys2Proof.Machine
end

