-- ==== Sys2Proof/Laws/Exec.lean ====
section
/-! SUPPORT. Everything a command can do, said once (60_exceptions.md R210-R212): it takes a fault of its row of the table,
or writes its destination, or sets the comparison flags, or does nothing. -/

namespace Sys2Proof.Machine

/-- Everything `commit` can answer. -/
theorem State.commit_eq (s : State) (w : Word) (rd : Reg) (r : Fx) :
    s.commit w rd r = .next (match r with
      | .ok v => s.setReg rd (word v)
      | .error c => s.takeFault c w) := by
  cases r <;> rfl

/-- Everything `commitDom` can answer. -/
theorem State.commitDom_eq (s : State) (w : Word) (rd : Reg) (outside : Bool) (r : Fx) :
    s.commitDom w rd outside r = .next (match r with
      | .ok v => (s.setReg rd (word v)).raiseFlag .dom outside
      | .error c => s.takeFault c w) := by
  cases r <;> rfl

/-- What a command's next state is. -/
inductive Effect (i : Instr) (s t : State) : Prop where
  | faulted (c : Cause) (ht : t = s.takeFault c (encode i))
      (hc : (c = .overflow ∧ mayOverflow i = true) ∨ (c = .divideByZero ∧ mayDivideByZero i = true))
  | wrote (d : Reg) (w : Word) (outside : Bool) (hd : destinationOf i = some d)
      (ht : t = (s.setReg d w).raiseFlag .dom outside) (ho : outside = true → maySetDom i = true)
  | compared (hc : isCmp i = true) (hd : destinationOf i = none) (o : Ordering) (ht : t = s.setCompare o)
  | idle (hd : destinationOf i = none) (ht : t = s)

theorem Effect.of_put {i : Instr} {s : State} {d : Reg} {w : Word} (hd : destinationOf i = some d) :
    ∃ t, s.put d w = .next t ∧ Effect i s t :=
  ⟨_, rfl, .wrote d w false hd rfl (fun h => nomatch h)⟩

theorem Effect.of_commit {i : Instr} {s : State} {d : Reg} {r : Fx} (hd : destinationOf i = some d)
    (hc : ∀ c, r = .error c →
      (c = .overflow ∧ mayOverflow i = true) ∨ (c = .divideByZero ∧ mayDivideByZero i = true)) :
    ∃ t, s.commit (encode i) d r = .next t ∧ Effect i s t := by
  refine ⟨_, State.commit_eq s _ d r, ?_⟩
  cases r with
  | ok v => exact .wrote d _ false hd rfl (fun h => nomatch h)
  | error c => exact .faulted c rfl (hc c rfl)

theorem Effect.of_commitDom {i : Instr} {s : State} {d : Reg} {outside : Bool} {r : Fx}
    (hd : destinationOf i = some d) (hm : maySetDom i = true)
    (hc : ∀ c, r = .error c →
      (c = .overflow ∧ mayOverflow i = true) ∨ (c = .divideByZero ∧ mayDivideByZero i = true)) :
    ∃ t, s.commitDom (encode i) d outside r = .next t ∧ Effect i s t := by
  refine ⟨_, State.commitDom_eq s _ d outside r, ?_⟩
  cases r with
  | ok v => exact .wrote d _ outside hd rfl (fun _ => hm)
  | error c => exact .faulted c rfl (hc c rfl)

/-- Every command answers a next state, by one of the four effects. -/
theorem exec_effect (i : Instr) (s : State) : ∃ t, exec i s = .next t ∧ Effect i s t := by
  cases i with
  | nop => exact ⟨s, rfl, .idle rfl rfl⟩
  | cmp a b => exact ⟨_, rfl, .compared rfl rfl _ rfl⟩
  | add d a b => exact Effect.of_commit rfl fun c h => .inl ⟨fxADD_error h, rfl⟩
  | sub d a b => exact Effect.of_commit rfl fun c h => .inl ⟨fxSUB_error h, rfl⟩
  | mul d a b => exact Effect.of_commit rfl fun c h => .inl ⟨fxMUL_error h, rfl⟩
  | div d a b => exact Effect.of_commit rfl fun c h => (fxDIV_error h).imp (fun h => ⟨h, rfl⟩) (fun h => ⟨h, rfl⟩)
  | mod d a b => exact Effect.of_commit rfl fun c h => .inr ⟨fxMOD_error h, rfl⟩
  | inc d a => exact Effect.of_commit rfl fun c h => .inl ⟨fxADD_error h, rfl⟩
  | dec d a => exact Effect.of_commit rfl fun c h => .inl ⟨fxSUB_error h, rfl⟩
  | itox d a => exact Effect.of_commit rfl fun c h => .inl ⟨fxITOX_error h, rfl⟩
  | ftox d a => exact Effect.of_commit rfl fun c h => .inl ⟨fxFTOX_error h, rfl⟩
  | ceil d a => exact Effect.of_commit rfl fun c h => .inl ⟨fxCEIL_error h, rfl⟩
  | round d a => exact Effect.of_commit rfl fun c h => .inl ⟨fxROUND_error h, rfl⟩
  | sqrt d a => exact Effect.of_commitDom (i := .sqrt d a) (r := .ok (fxSQRT (s.operand a))) rfl rfl fun c h => by cases h
  | asin d a =>
    obtain ⟨v, hv⟩ := fxASIN_ok (s.operand a)
    exact Effect.of_commitDom (i := .asin d a) rfl rfl fun c h => by rw [hv] at h; cases h
  | acos d a => exact Effect.of_commitDom rfl rfl fun c h => .inl ⟨fxACOS_error h, rfl⟩
  | _ => exact Effect.of_put rfl

/-- What exec's next state is, for use with a given one. -/
theorem effect_of_exec {i : Instr} {s t : State} (h : exec i s = .next t) : Effect i s t := by
  obtain ⟨u, hu, he⟩ := exec_effect i s
  rw [hu] at h
  cases h
  exact he

/-- The fault-latch bits the model sets are those of R212. -/
theorem latches_takeFault (s : State) (c : Cause) (w : Word) : Latches (.next (s.takeFault c w)) s c w := by
  refine ⟨_, rfl, by simp, ?_, ?_, rfl, by simp [SamePort]⟩
  · rw [State.status_takeFault]
    cases c <;> rfl
  · cases c <;> rfl

/-- What `put` does in the terms of the claims. -/
theorem puts_setReg (s : State) (rd : Reg) (w : Word) : Puts (.next (s.setReg rd w)) s rd w :=
  ⟨_, rfl, by simp, fun i hi => by simp [State.reg_setReg, hi], rfl, by simp [SameControl, SamePort]⟩

/-- What `commitDom` does on a value, in the terms of the claims. -/
theorem putsDom_setReg (s : State) (rd : Reg) (w : Word) (outside : Bool) :
    PutsDom (.next ((s.setReg rd w).raiseFlag .dom outside)) s rd w (outside = true) := by
  refine ⟨_, rfl, by simp, fun i hi => by simp [State.reg_setReg, hi], ?_, ?_, by simp [SameControl, SamePort]⟩
  · intro h; simp [State.status_raiseDom, h]
  · intro h; simp [State.status_raiseDom, h]

/-- A command's word by its field values (30_encoding.md R71). -/
theorem layout_eq_spelled (f : Fields) (op : BitVec 8) :
    layout f op = spelled op.toNat f.rd f.rs1 f.rs2 f.rs3 f.imm8.toNat := by
  apply BitVec.eq_of_toNat_eq
  rw [layout_toNat, spelled, BitVec.toNat_ofNat, Nat.mod_eq_of_lt]
  have h0 := op.isLt
  have h1 := f.rd.isLt
  have h2 := f.rs1.isLt
  have h3 := f.rs2.isLt
  have h4 := f.rs3.isLt
  have h5 := f.imm8.isLt
  omega

/-! ### The commits in the terms of the claims -/

theorem State.operand_def (s : State) (i : Reg) : s.operand i = s32 (s.reg i) := rfl

theorem State.fits32_operand (s : State) (i : Reg) : fits32 (s.operand i) := fits32_s32 _
theorem State.operand_range (s : State) (i : Reg) : -2147483648 ≤ s.operand i ∧ s.operand i ≤ 2147483647 := s32_range _
theorem State.commit_puts {s : State} {w : Word} {rd : Reg} {r : Fx} {v : Int} (h : r = .ok v) : Puts (s.commit w rd r) s rd (word v) := by subst h; exact puts_setReg s rd _
theorem State.commit_latches {s : State} {w w' : Word} {rd : Reg} {r : Fx} {c : Cause} (h : r = .error c) (hw : w = w') : Latches (s.commit w rd r) s c w' := by
  subst h hw; exact latches_takeFault s c w
theorem State.put_puts {s : State} {rd : Reg} {w w' : Word} (h : w = w') : Puts (s.put rd w) s rd w' := by subst h; exact puts_setReg s rd _

theorem State.commitDom_puts {s : State} {w : Word} {rd : Reg} {r : Fx} {v : Int} {o : Bool} {P : Prop} (h : r = .ok v) (ho : P ↔ o = true) : PutsDom (s.commitDom w rd o r) s rd (word v) P := by
  subst h; rw [propext ho]; exact putsDom_setReg s rd _ _
theorem State.commitDom_latches {s : State} {w w' : Word} {rd : Reg} {r : Fx} {c : Cause} {o : Bool} (h : r = .error c) (hw : w = w') : Latches (s.commitDom w rd o r) s c w' := by
  subst h hw; exact latches_takeFault s c w

theorem State.reg_eq_iff (s : State) (i : Reg) (w : Word) : s.reg i = w ↔ s.operand i = s32 w := by
  constructor
  · intro h; rw [State.operand_def, h]
  · intro h; rw [← word_s32 w, ← h, State.operand_def, word_s32]

/-! ### Two runs of one command on the same operands -/

/-- Two runs end alike: the same fault, or the same word in `d`, and DOM raised in both or in neither. -/
def Agree (s s' t t' : State) (d : Reg) : Prop :=
  t.flag .fault = t'.flag .fault ∧ (t.flag .fault = true → t.cause = t'.cause) ∧
    (t.flag .fault = false → t.reg d = t'.reg d) ∧
    ∃ raised : Bool, t.flag .dom = (s.flag .dom || raised) ∧ t'.flag .dom = (s'.flag .dom || raised)

theorem agree_put {s s' t t' : State} {d : Reg} {v v' : Word} (hf : s.flag .fault = false)
    (hf' : s'.flag .fault = false) (h : s.put d v = .next t) (h' : s'.put d v' = .next t') (e : v = v') :
    Agree s s' t t' d := by
  cases h; cases h'; subst e
  exact ⟨by simp [hf, hf'], by simp [hf], by simp, false, by simp⟩

theorem agree_commit {s s' t t' : State} {d : Reg} {r r' : Fx} {w w' : Word} (hf : s.flag .fault = false)
    (hf' : s'.flag .fault = false) (h : s.commit w d r = .next t) (h' : s'.commit w' d r' = .next t') (e : r = r') :
    Agree s s' t t' d := by
  subst e
  cases r with
  | ok v => exact agree_put hf hf' h h' rfl
  | error c => cases h; cases h'; exact ⟨by simp [State.flag_takeFault], by simp, by simp [State.flag_takeFault], false, by
      cases c <;> simp [State.flag_takeFault, Cause.sticky]⟩

theorem agree_commitDom {s s' t t' : State} {d : Reg} {r r' : Fx} {o o' : Bool} {w w' : Word}
    (hf : s.flag .fault = false) (hf' : s'.flag .fault = false) (h : s.commitDom w d o r = .next t)
    (h' : s'.commitDom w' d o' r' = .next t') (e : r = r') (ho : o = o') : Agree s s' t t' d := by
  subst e ho
  cases r with
  | ok v => cases h; cases h'; exact ⟨by simp [State.flag_raiseFlag, hf, hf'], by simp [State.flag_raiseFlag, hf], by simp, o,
      by simp [State.flag_raiseFlag]⟩
  | error c => exact agree_commit (w := w) (w' := w') (r := .error c) (r' := .error c) hf hf' h h' rfl

end Sys2Proof.Machine
end

