-- ==== Sys2Proof/Laws/PerInstr.lean ====
section
/-! SUPPORT. Per command: its word has its OP and passes its row's mask test (30_encoding.md R74, R75). -/

namespace Sys2Proof.Laws

/-- The word of a well-formed command holds the command's OP, and every field its format does not use is zero. -/
def EncodedWord.Statement (i : Instr) : Prop :=
  i.wellFormed = true → opOf (encode i) = i.opcode ∧ encode i &&& i.format.mask = matchOf i.opcode

/-- The fields of a format's mask: all ones where the format has a zero field (30_encoding.md R72). -/
def maskFields : Format → Fields
  | .fn => ⟨15, 15, 15, 15, 0xFF#8⟩
  | .f2r => ⟨0, 0, 15, 15, 0xFF#8⟩
  | .f3r => ⟨0, 0, 0, 15, 0xFF#8⟩
  | .f4r => ⟨0, 0, 0, 0, 0xFF#8⟩
  | .fri => ⟨0, 0, 15, 15, 0xE0#8⟩
  | .fk => ⟨0, 15, 15, 15, 0xF8#8⟩
  | .fc => ⟨15, 0, 0, 15, 0xFF#8⟩

theorem mask_fields (m : Format) : opOf m.mask = 0xFF#8 ∧ fieldsOf m.mask = maskFields m := by
  cases m <;> decide

/-- The statement from the fields of the command alone. -/
theorem encodedWord_of_fields {i : Instr}
    (h : BitVec.ofFin (w := 4) i.fields.rd &&& BitVec.ofFin (maskFields i.format).rd = 0#4 ∧
      BitVec.ofFin (w := 4) i.fields.rs1 &&& BitVec.ofFin (maskFields i.format).rs1 = 0#4 ∧
      BitVec.ofFin (w := 4) i.fields.rs2 &&& BitVec.ofFin (maskFields i.format).rs2 = 0#4 ∧
      BitVec.ofFin (w := 4) i.fields.rs3 &&& BitVec.ofFin (maskFields i.format).rs3 = 0#4 ∧
      i.fields.imm8 &&& (maskFields i.format).imm8 = 0#8) : EncodedWord.Statement i :=
  fun _ => ⟨opOf_layout _ _, (layout_and_mask _ _ _ (mask_fields _).1).2 (by rw [(mask_fields _).2]; exact h)⟩

theorem unused_field (m : Reg) : BitVec.ofFin (w := 4) 0 &&& BitVec.ofFin m = 0#4 := BitVec.zero_and

theorem unused_imm8 (m : BitVec 8) : 0#8 &&& m = 0#8 := BitVec.zero_and

theorem and_zero_field (a : Reg) : BitVec.ofFin (w := 4) a &&& 0#4 = 0#4 := by simp

theorem EncodedWord.nop : EncodedWord.Statement .nop :=
  encodedWord_of_fields ⟨unused_field _, unused_field _, unused_field _, unused_field _, unused_imm8 _⟩

theorem EncodedWord.add (rd rs1 rs2 : Reg) : EncodedWord.Statement (.add rd rs1 rs2) :=
  encodedWord_of_fields ⟨and_zero_field rd, and_zero_field rs1, and_zero_field rs2, unused_field _, unused_imm8 _⟩

theorem EncodedWord.sub (rd rs1 rs2 : Reg) : EncodedWord.Statement (.sub rd rs1 rs2) :=
  encodedWord_of_fields ⟨and_zero_field rd, and_zero_field rs1, and_zero_field rs2, unused_field _, unused_imm8 _⟩

theorem EncodedWord.mul (rd rs1 rs2 : Reg) : EncodedWord.Statement (.mul rd rs1 rs2) :=
  encodedWord_of_fields ⟨and_zero_field rd, and_zero_field rs1, and_zero_field rs2, unused_field _, unused_imm8 _⟩

theorem EncodedWord.div (rd rs1 rs2 : Reg) : EncodedWord.Statement (.div rd rs1 rs2) :=
  encodedWord_of_fields ⟨and_zero_field rd, and_zero_field rs1, and_zero_field rs2, unused_field _, unused_imm8 _⟩

theorem EncodedWord.mod (rd rs1 rs2 : Reg) : EncodedWord.Statement (.mod rd rs1 rs2) :=
  encodedWord_of_fields ⟨and_zero_field rd, and_zero_field rs1, and_zero_field rs2, unused_field _, unused_imm8 _⟩

theorem EncodedWord.sdiv (rd rs1 rs2 : Reg) : EncodedWord.Statement (.sdiv rd rs1 rs2) :=
  encodedWord_of_fields ⟨and_zero_field rd, and_zero_field rs1, and_zero_field rs2, unused_field _, unused_imm8 _⟩

theorem EncodedWord.neg (rd rs1 : Reg) : EncodedWord.Statement (.neg rd rs1) :=
  encodedWord_of_fields ⟨and_zero_field rd, and_zero_field rs1, unused_field _, unused_field _, unused_imm8 _⟩

theorem EncodedWord.inc (rd rs1 : Reg) : EncodedWord.Statement (.inc rd rs1) :=
  encodedWord_of_fields ⟨and_zero_field rd, and_zero_field rs1, unused_field _, unused_field _, unused_imm8 _⟩

theorem EncodedWord.dec (rd rs1 : Reg) : EncodedWord.Statement (.dec rd rs1) :=
  encodedWord_of_fields ⟨and_zero_field rd, and_zero_field rs1, unused_field _, unused_field _, unused_imm8 _⟩

theorem EncodedWord.shli (rd rs1 : Reg) (shamt : Nat) : EncodedWord.Statement (.shli rd rs1 shamt) :=
  fun hw =>
  encodedWord_of_fields ⟨and_zero_field rd, and_zero_field rs1, unused_field _, unused_field _, (shamt_field (of_decide_eq_true hw)).1⟩ hw

theorem EncodedWord.shri (rd rs1 : Reg) (shamt : Nat) : EncodedWord.Statement (.shri rd rs1 shamt) :=
  fun hw =>
  encodedWord_of_fields ⟨and_zero_field rd, and_zero_field rs1, unused_field _, unused_field _, (shamt_field (of_decide_eq_true hw)).1⟩ hw

theorem EncodedWord.cmp (rs1 rs2 : Reg) : EncodedWord.Statement (.cmp rs1 rs2) :=
  encodedWord_of_fields ⟨unused_field _, and_zero_field rs1, and_zero_field rs2, unused_field _, unused_imm8 _⟩

theorem EncodedWord.mov (rd rs1 : Reg) : EncodedWord.Statement (.mov rd rs1) :=
  encodedWord_of_fields ⟨and_zero_field rd, and_zero_field rs1, unused_field _, unused_field _, unused_imm8 _⟩

theorem EncodedWord.ldc (rd : Reg) (kidx : Fin 8) : EncodedWord.Statement (.ldc rd kidx) :=
  encodedWord_of_fields ⟨and_zero_field rd, unused_field _, unused_field _, unused_field _, (kidx_field kidx).1⟩

theorem EncodedWord.itox (rd rs1 : Reg) : EncodedWord.Statement (.itox rd rs1) :=
  encodedWord_of_fields ⟨and_zero_field rd, and_zero_field rs1, unused_field _, unused_field _, unused_imm8 _⟩

theorem EncodedWord.xtoi (rd rs1 : Reg) : EncodedWord.Statement (.xtoi rd rs1) :=
  encodedWord_of_fields ⟨and_zero_field rd, and_zero_field rs1, unused_field _, unused_field _, unused_imm8 _⟩

theorem EncodedWord.ftox (rd rs1 : Reg) : EncodedWord.Statement (.ftox rd rs1) :=
  encodedWord_of_fields ⟨and_zero_field rd, and_zero_field rs1, unused_field _, unused_field _, unused_imm8 _⟩

theorem EncodedWord.xtof (rd rs1 : Reg) : EncodedWord.Statement (.xtof rd rs1) :=
  encodedWord_of_fields ⟨and_zero_field rd, and_zero_field rs1, unused_field _, unused_field _, unused_imm8 _⟩

theorem EncodedWord.abs (rd rs1 : Reg) : EncodedWord.Statement (.abs rd rs1) :=
  encodedWord_of_fields ⟨and_zero_field rd, and_zero_field rs1, unused_field _, unused_field _, unused_imm8 _⟩

theorem EncodedWord.sign (rd rs1 : Reg) : EncodedWord.Statement (.sign rd rs1) :=
  encodedWord_of_fields ⟨and_zero_field rd, and_zero_field rs1, unused_field _, unused_field _, unused_imm8 _⟩

theorem EncodedWord.floor (rd rs1 : Reg) : EncodedWord.Statement (.floor rd rs1) :=
  encodedWord_of_fields ⟨and_zero_field rd, and_zero_field rs1, unused_field _, unused_field _, unused_imm8 _⟩

theorem EncodedWord.ceil (rd rs1 : Reg) : EncodedWord.Statement (.ceil rd rs1) :=
  encodedWord_of_fields ⟨and_zero_field rd, and_zero_field rs1, unused_field _, unused_field _, unused_imm8 _⟩

theorem EncodedWord.round (rd rs1 : Reg) : EncodedWord.Statement (.round rd rs1) :=
  encodedWord_of_fields ⟨and_zero_field rd, and_zero_field rs1, unused_field _, unused_field _, unused_imm8 _⟩

theorem EncodedWord.min (rd rs1 rs2 : Reg) : EncodedWord.Statement (.min rd rs1 rs2) :=
  encodedWord_of_fields ⟨and_zero_field rd, and_zero_field rs1, and_zero_field rs2, unused_field _, unused_imm8 _⟩

theorem EncodedWord.max (rd rs1 rs2 : Reg) : EncodedWord.Statement (.max rd rs1 rs2) :=
  encodedWord_of_fields ⟨and_zero_field rd, and_zero_field rs1, and_zero_field rs2, unused_field _, unused_imm8 _⟩

theorem EncodedWord.clamp (rd rs1 rs2 rs3 : Reg) : EncodedWord.Statement (.clamp rd rs1 rs2 rs3) :=
  encodedWord_of_fields ⟨and_zero_field rd, and_zero_field rs1, and_zero_field rs2, and_zero_field rs3, unused_imm8 _⟩

theorem EncodedWord.sqrt (rd rs1 : Reg) : EncodedWord.Statement (.sqrt rd rs1) :=
  encodedWord_of_fields ⟨and_zero_field rd, and_zero_field rs1, unused_field _, unused_field _, unused_imm8 _⟩

theorem EncodedWord.sin (rd rs1 : Reg) : EncodedWord.Statement (.sin rd rs1) :=
  encodedWord_of_fields ⟨and_zero_field rd, and_zero_field rs1, unused_field _, unused_field _, unused_imm8 _⟩

theorem EncodedWord.cos (rd rs1 : Reg) : EncodedWord.Statement (.cos rd rs1) :=
  encodedWord_of_fields ⟨and_zero_field rd, and_zero_field rs1, unused_field _, unused_field _, unused_imm8 _⟩

theorem EncodedWord.tan (rd rs1 : Reg) : EncodedWord.Statement (.tan rd rs1) :=
  encodedWord_of_fields ⟨and_zero_field rd, and_zero_field rs1, unused_field _, unused_field _, unused_imm8 _⟩

theorem EncodedWord.atan (rd rs1 : Reg) : EncodedWord.Statement (.atan rd rs1) :=
  encodedWord_of_fields ⟨and_zero_field rd, and_zero_field rs1, unused_field _, unused_field _, unused_imm8 _⟩

theorem EncodedWord.atan2 (rd rs1 rs2 : Reg) : EncodedWord.Statement (.atan2 rd rs1 rs2) :=
  encodedWord_of_fields ⟨and_zero_field rd, and_zero_field rs1, and_zero_field rs2, unused_field _, unused_imm8 _⟩

theorem EncodedWord.asin (rd rs1 : Reg) : EncodedWord.Statement (.asin rd rs1) :=
  encodedWord_of_fields ⟨and_zero_field rd, and_zero_field rs1, unused_field _, unused_field _, unused_imm8 _⟩

theorem EncodedWord.acos (rd rs1 : Reg) : EncodedWord.Statement (.acos rd rs1) :=
  encodedWord_of_fields ⟨and_zero_field rd, and_zero_field rs1, unused_field _, unused_field _, unused_imm8 _⟩

end Sys2Proof.Laws
end

