-- ==== Sys2Proof/Laws/Decoding.lean ====
section
/-! SUPPORT. The decoder read backwards: what a word that decodes looks like, and the zero fields of a row
(30_encoding.md R72-R77). -/

namespace Sys2Proof

/-- The word of a well-formed command passes its row's mask test (R74). -/
theorem encode_and_mask (i : Instr) (h : i.wellFormed = true) : encode i &&& i.format.mask = matchOf i.opcode := by
  cases i with
  | nop => exact (Laws.EncodedWord.nop h).2
  | shli a b n => exact (Laws.EncodedWord.shli a b n h).2
  | shri a b n => exact (Laws.EncodedWord.shri a b n h).2
  | ldc a b => exact (Laws.EncodedWord.ldc a b h).2
  | cmp a b => exact (Laws.EncodedWord.cmp a b h).2
  | clamp a b c d => exact (Laws.EncodedWord.clamp a b c d h).2
  | neg a b => exact (Laws.EncodedWord.neg a b h).2
  | inc a b => exact (Laws.EncodedWord.inc a b h).2
  | dec a b => exact (Laws.EncodedWord.dec a b h).2
  | mov a b => exact (Laws.EncodedWord.mov a b h).2
  | itox a b => exact (Laws.EncodedWord.itox a b h).2
  | xtoi a b => exact (Laws.EncodedWord.xtoi a b h).2
  | ftox a b => exact (Laws.EncodedWord.ftox a b h).2
  | xtof a b => exact (Laws.EncodedWord.xtof a b h).2
  | abs a b => exact (Laws.EncodedWord.abs a b h).2
  | sign a b => exact (Laws.EncodedWord.sign a b h).2
  | floor a b => exact (Laws.EncodedWord.floor a b h).2
  | ceil a b => exact (Laws.EncodedWord.ceil a b h).2
  | round a b => exact (Laws.EncodedWord.round a b h).2
  | sqrt a b => exact (Laws.EncodedWord.sqrt a b h).2
  | sin a b => exact (Laws.EncodedWord.sin a b h).2
  | cos a b => exact (Laws.EncodedWord.cos a b h).2
  | tan a b => exact (Laws.EncodedWord.tan a b h).2
  | atan a b => exact (Laws.EncodedWord.atan a b h).2
  | asin a b => exact (Laws.EncodedWord.asin a b h).2
  | acos a b => exact (Laws.EncodedWord.acos a b h).2
  | add a b d => exact (Laws.EncodedWord.add a b d h).2
  | sub a b d => exact (Laws.EncodedWord.sub a b d h).2
  | mul a b d => exact (Laws.EncodedWord.mul a b d h).2
  | div a b d => exact (Laws.EncodedWord.div a b d h).2
  | mod a b d => exact (Laws.EncodedWord.mod a b d h).2
  | sdiv a b d => exact (Laws.EncodedWord.sdiv a b d h).2
  | min a b d => exact (Laws.EncodedWord.min a b d h).2
  | max a b d => exact (Laws.EncodedWord.max a b d h).2
  | atan2 a b d => exact (Laws.EncodedWord.atan2 a b d h).2

/-- What a word that decodes looks like (R77). -/
theorem decode_inv {w : Word} {i : Instr} (h : decode w = .ok i) : ∃ r, rowOf (opOf w) = some r ∧ w &&& r.format.mask = matchOf (opOf w) ∧ r.build (fieldsOf w) = i := by
  unfold decode at h
  cases hr : rowOf (opOf w) with
  | none => rw [hr] at h; cases h
  | some r =>
    rw [hr] at h
    simp only at h
    split at h
    · cases h
    · rename_i hm
      exact ⟨r, rfl, not_not.1 hm, by injection h⟩

/-- A row's command holds the word's fields, where the word passes the row's mask test. -/
theorem row_fields {op : BitVec 8} {r : Row} (h : rowOf op = some r) (f : Fields)
    (hm : layout f op &&& r.format.mask = matchOf op) : (r.build f).wellFormed = true ∧ (r.build f).fields = f := by
  rw [layout_and_mask _ _ _ (Laws.mask_fields _).1, (Laws.mask_fields _).2] at hm
  obtain ⟨rd, rs1, rs2, rs3, imm8⟩ := f
  have z : ∀ x : Reg, BitVec.ofFin (w := 4) x &&& BitVec.ofFin (15 : Reg) = 0#4 → x = 0 := by decide
  have z8 : ∀ x : BitVec 8, x &&& 0xFF#8 = 0#8 → x = 0#8 := by decide
  have s8 : ∀ x : BitVec 8, x &&& 0xE0#8 = 0#8 → (x.extractLsb' 0 5).toNat < 32 ∧ BitVec.ofNat 8 (x.extractLsb' 0 5).toNat = x := by decide
  have k8 : ∀ x : BitVec 8, x &&& 0xF8#8 = 0#8 → BitVec.ofNat 8 ((x.extractLsb' 0 3).toFin : Fin 8).val = x := by decide
  unfold rowOf at h
  split at h
  all_goals first
    | (injection h with h; subst h
       simp only [Laws.maskFields] at hm
       obtain ⟨h1, h2, h3, h4, h5⟩ := hm
       first
       | (have e1 := z _ h1; have e2 := z _ h2; have e3 := z _ h3; have e4 := z _ h4; have e5 := z8 _ h5; subst e1 e2 e3 e4 e5; exact ⟨rfl, rfl⟩)
       | (have e3 := z _ h3; have e4 := z _ h4; have e5 := z8 _ h5; subst e3 e4 e5; exact ⟨rfl, rfl⟩)
       | (have e1 := z _ h1; have e4 := z _ h4; have e5 := z8 _ h5; subst e1 e4 e5; exact ⟨rfl, rfl⟩)
       | (have e4 := z _ h4; have e5 := z8 _ h5; subst e4 e5; exact ⟨rfl, rfl⟩)
       | (have e5 := z8 _ h5; subst e5; exact ⟨rfl, rfl⟩)
       | (have e3 := z _ h3; have e4 := z _ h4; have e5 := s8 _ h5; subst e3 e4
          refine ⟨decide_eq_true e5.1, ?_⟩
          simp only [Instr.fields, Fields.shamt, e5.2])
       | (have e2 := z _ h2; have e3 := z _ h3; have e4 := z _ h4; have e5 := k8 _ h5; subst e2 e3 e4
          refine ⟨rfl, ?_⟩
          simp only [Instr.fields, Fields.kidx, e5]))
    | cases h

/-- The opcode map of the claims is the decoder's (R74). -/
theorem formatOfOp_rowOf : ∀ op : BitVec 8, Machine.formatOfOp op.toNat = (rowOf op).map Row.format := by decide

/-- A word that passes a mask test has the OP it is tested for. -/
theorem opOf_eq_of_mask {w : Word} {m : Format} {op : BitVec 8} (h : w &&& m.mask = matchOf op) : opOf w = op := by
  have h1 := congrArg opOf h
  rw [matchOf_eq_layout, opOf_layout] at h1
  have e : (0xFF#8 : BitVec 8) = BitVec.allOnes 8 := rfl
  rw [opOf, BitVec.extractLsb'_and, ← opOf, ← opOf, (Laws.mask_fields m).1, e, BitVec.and_allOnes] at h1
  exact h1

/-- A word that is no command latches ILLEGAL_COMMAND where no fault is latched (R75, R76). -/
theorem Machine.latches_of_error {w : Word} {s : Machine.State} {e} (hf : s.flag .fault = false) (h : decode w = .error e) :
    Machine.Latches (Machine.writeCommand w s) s .illegalCommand w := by
  rw [Machine.writeCommand, hf]
  simp only [Bool.false_eq_true, if_false, Machine.execute, h]
  exact Machine.latches_takeFault s _ w

/-- The zero fields of a format are zero iff the word passes the format's mask test (R72, R75). -/
theorem Machine.unusedFieldsZero_iff (w : Word) (m : Format) : Machine.unusedFieldsZero w m = true ↔ w &&& m.mask = matchOf (opOf w) := by
  have hw := layout_fieldsOf w
  conv_rhs => rw [← hw]
  rw [opOf_layout, layout_and_mask _ _ _ (Laws.mask_fields _).1, (Laws.mask_fields _).2]
  have z : ∀ x : BitVec 4, BitVec.ofFin (x.toFin : Reg) &&& BitVec.ofFin (15 : Reg) = 0#4 ↔ x = 0#4 := by decide
  have n : ∀ x : BitVec 4, BitVec.ofFin (x.toFin : Reg) &&& BitVec.ofFin (0 : Reg) = 0#4 ↔ True := by decide
  have z8 : ∀ x : BitVec 8, x &&& 0xFF#8 = 0#8 ↔ x = 0#8 := by decide
  have s8 : ∀ x : BitVec 8, x &&& 0xE0#8 = 0#8 ↔ x.extractLsb' 5 3 = 0#3 := by decide
  have k8 : ∀ x : BitVec 8, x &&& 0xF8#8 = 0#8 ↔ x.extractLsb' 3 5 = 0#5 := by decide
  have e1 : (w.extractLsb' 24 8).extractLsb' 5 3 = w.extractLsb' 29 3 := by
    apply BitVec.eq_of_toNat_eq
    simp only [BitVec.extractLsb'_toNat, Nat.shiftRight_eq_div_pow]
    omega
  have e2 : (w.extractLsb' 24 8).extractLsb' 3 5 = w.extractLsb' 27 5 := by
    apply BitVec.eq_of_toNat_eq
    simp only [BitVec.extractLsb'_toNat, Nat.shiftRight_eq_div_pow]
    omega
  cases m <;> simp only [Machine.unusedFieldsZero, Laws.maskFields, fieldsOf, z, n, z8, s8, k8, e1, e2, Bool.and_eq_true, beq_iff_eq, true_and]
  · constructor
    · intro h
      have h' := congrArg BitVec.toNat h
      simp only [BitVec.extractLsb'_toNat, Nat.shiftRight_eq_div_pow, BitVec.toNat_ofNat] at h'
      refine ⟨?_, ?_, ?_, ?_, ?_⟩ <;> apply BitVec.eq_of_toNat_eq <;> simp only [BitVec.extractLsb'_toNat, Nat.shiftRight_eq_div_pow, BitVec.toNat_ofNat] <;> omega
    · intro ⟨a, b, c, d, e⟩
      apply BitVec.eq_of_toNat_eq
      have a' := congrArg BitVec.toNat a
      have b' := congrArg BitVec.toNat b
      have c' := congrArg BitVec.toNat c
      have d' := congrArg BitVec.toNat d
      have e' := congrArg BitVec.toNat e
      simp only [BitVec.extractLsb'_toNat, Nat.shiftRight_eq_div_pow, BitVec.toNat_ofNat] at *
      omega
  · tauto
  · tauto
  · tauto
  · tauto

end Sys2Proof
end

