-- ==== Sys2Proof/Laws/Kernels.lean ====
section
/-! SUPPORT. What holds of the free kernels whatever their raw values are (44_trig.md R181, R186). -/

namespace Sys2Proof.Machine

theorem sinMagnitude_bound (n : Nat) : -65539 ≤ sinMagnitude n ∧ sinMagnitude n ≤ 65539 := by
  unfold sinMagnitude; split
  · have := Config.sinQuarterRaw.isLt; simp only [one, sinEps]; omega
  · have := (Config.sinRaw n).isLt; simp only [one, sinEps]; omega

theorem sinKernel_bound (r : Int) : -65539 ≤ sinKernel r ∧ sinKernel r ≤ 65539 := by
  have := sinMagnitude_bound (mag r)
  unfold sinKernel; split
  · omega
  · split <;> omega

theorem sinKernel_neg (r : Int) : sinKernel (-r) = -sinKernel r := by
  unfold sinKernel
  by_cases h0 : r = 0
  · simp [h0]
  · by_cases h : r < 0
    · simp [h0, h, show ¬ 0 < r by omega]
    · simp [h0, h, show 0 < r by omega]

theorem atanFn_range (z : Int) : -2147483648 ≤ atanFn z ∧ atanFn z ≤ 2147483647 := by
  unfold atanFn
  have := (Config.atanRaw (mag z)).isLt
  split
  · exact s32_range _
  · split
    · omega
    · simp only [maxValue]; split <;> omega

theorem atanFn_neg {z : Int} (h : z ≠ -2147483648) (h' : -z ≠ -2147483648) : atanFn (-z) = -atanFn z := by
  unfold atanFn
  rw [if_neg h, if_neg h']
  by_cases h0 : z = 0
  · simp [h0]
  · rw [if_neg (by omega), if_neg h0, mag_neg]
    simp only [maxValue]
    by_cases hz : z < 0
    · rw [if_neg (by omega), if_pos hz]; omega
    · rw [if_pos (by omega), if_neg hz]

end Sys2Proof.Machine
end

