-- ==== Sys2Proof/Laws/Port.lean ====
section
/-! SUPPORT. What a step does with each kind of input, and the register map by offset (20_memory.md R51-R55, R60). -/

namespace Sys2Proof.Machine

/-! ### One step by what comes next -/

theorem step_idle {s : State} (h : s.inputs = []) : step s = .next s := by
  simp only [step, serveNext, h]

theorem step_reset {s : State} {rest : List Input} (h : s.inputs = .reset :: rest) :
    step s = .next { s with inputs := rest }.resetInput := by
  simp only [step, serveNext, h]

theorem step_access {s : State} {a : Access} {rest : List Input} (h : s.inputs = .access a :: rest) :
    step s = serve a { s with inputs := rest } := by
  simp only [step, serveNext, h]

/-! ### One access -/

theorem serve_bad {a : Access} {s : State} (h : a.target = none) : serve a s = .fault .badHostAccess := by
  simp only [serve, State.answerTo, h]

theorem serve_read {a : Access} {s : State} {r : WindowRegister} (h : a.target = some r) (ho : a.op = .read) :
    serve a s = .next { s with answer := some (.data (s.readRegister r)) } := by
  simp only [serve, State.answerTo, perform, h, ho, withAnswer]

theorem serve_write {a : Access} {s : State} {r : WindowRegister} {w : Word} (h : a.target = some r)
    (ho : a.op = .write w) : serve a s = withAnswer .ack (writeRegister r w s) := by
  simp only [serve, State.answerTo, perform, h, ho]

theorem commandAccess_target (w : Word) : (commandAccess w).target = some .cmd := by
  have : windowRegister 0x40#8 = some .cmd := by decide
  simpa [commandAccess, Access.target] using this

/-- Every write of a window register answers a next state. -/
theorem writeRegister_next (r : WindowRegister) (w : Word) (s : State) : ∃ t, writeRegister r w s = .next t := by
  cases r with
  | cmd =>
    simp only [writeRegister, writeCommand]
    split
    · exact ⟨_, rfl⟩
    · simp only [execute]
      split
      · obtain ⟨t, ht, _⟩ := exec_effect _ s
        exact ⟨t, ht⟩
      · exact ⟨_, rfl⟩
  | _ => exact ⟨_, rfl⟩

/-! ### The map (20_memory.md R52) -/

theorem windowRegister_data (i : Reg) : windowRegister (BitVec.ofNat 8 (4 * i.val)) = some (.data i) := by
  revert i
  decide

theorem windowRegister_control :
    windowRegister 0x40#8 = some .cmd ∧ windowRegister 0x44#8 = some .status ∧ windowRegister 0x48#8 = some .cause ∧
      windowRegister 0x4C#8 = some .faultcmd ∧ windowRegister 0x50#8 = some .ctrl := by
  decide

/-- An access is performed exactly where it is a 32-bit one at an aligned offset below 0x54 (20_memory.md R51, R55). -/
theorem target_none_iff (a : Access) : a.target = none ↔ isBadInput (.access a) = true := by
  obtain ⟨width, offset, op⟩ := a
  have key : ∀ o : BitVec 8,
      windowRegister o = none ↔ (o.toNat % 4 != 0 || decide (0x54 ≤ o.toNat)) = true := by
    decide
  cases width <;> simp [Access.target, isBadInput, key offset]

theorem target_word {o : BitVec 8} {op} : (Access.mk .word o op).target = windowRegister o := rfl

theorem windowRegister_of_toNat {o : BitVec 8} {i : Reg} (h : o.toNat = 4 * i.val) : windowRegister o = some (.data i) := by
  rw [← windowRegister_data i, ← h]; simp

/-- STATUS stands at offset 0x44 alone. -/
theorem target_status {a : Access} (h : a.target = some .status) : a.width = .word ∧ a.offset = 0x44#8 := by
  unfold Access.target at h
  split at h
  · rename_i hw
    refine ⟨hw, ?_⟩
    revert h
    generalize a.offset = o
    revert o; decide
  · cases h

/-- CMD stands at offset 0x40 alone. -/
theorem target_offset {a : Access} (h : a.target = some .cmd) : a.offset = 0x40#8 := by
  unfold Access.target at h
  split at h
  · revert h
    generalize a.offset = o
    revert o; decide
  · cases h

/-! ### Everything a step can do -/

/-- What a step's next state is (20_memory.md R60). -/
inductive StepEffect (s t : State) : Prop where
  | idle (h : s.inputs = []) (ht : t = s)
  | reset (rest : List Input) (h : s.inputs = .reset :: rest) (ht : t = { s with inputs := rest }.resetInput)
  | read (a : Access) (rest : List Input) (w : Word) (h : s.inputs = .access a :: rest) (ho : a.op = .read)
      (ht : t = { s with inputs := rest, answer := some (.data w) })
  | write (a : Access) (rest : List Input) (r : WindowRegister) (w : Word) (u : State)
      (h : s.inputs = .access a :: rest) (hr : a.target = some r) (ho : a.op = .write w)
      (hu : writeRegister r w { s with inputs := rest } = .next u) (ht : t = { u with answer := some .ack })

/-- A step that answers a next state does one of four things. -/
theorem step_effect {s t : State} (h : step s = .next t) : StepEffect s t := by
  cases hi : s.inputs with
  | nil => rw [step_idle hi] at h; cases h; exact .idle hi rfl
  | cons x rest =>
    cases x with
    | reset => rw [step_reset hi] at h; cases h; exact .reset rest hi rfl
    | access a =>
      rw [step_access hi] at h
      cases hr : a.target with
      | none => rw [serve_bad hr] at h; cases h
      | some r =>
        cases ho : a.op with
        | read => rw [serve_read hr ho] at h; cases h; exact .read a rest _ hi ho rfl
        | write w =>
          rw [serve_write hr ho] at h
          obtain ⟨u, hu⟩ := writeRegister_next r w { s with inputs := rest }
          rw [hu] at h
          cases h
          exact .write a rest r w u hi hr ho hu rfl

/-- What a write to CMD leads to (60_exceptions.md R211, R214). -/
inductive CommandEffect (w : Word) (s t : State) : Prop where
  | discarded (hf : s.flag .fault = true) (ht : t = s.setFlag .drop true)
  | illegal (hf : s.flag .fault = false) (e : DecodeError) (hd : decode w = .error e) (ht : t = s.takeFault .illegalCommand w)
  | ran (hf : s.flag .fault = false) (i : Instr) (hd : decode w = .ok i) (he : Effect i s t)

/-- A CMD write is discarded, or no command, or runs its command. -/
theorem command_effect {w : Word} {s t : State} (h : writeCommand w s = .next t) : CommandEffect w s t := by
  unfold writeCommand execute at h
  split at h
  · rename_i hf; cases h; exact .discarded hf rfl
  · rename_i hf
    have hf' : s.flag .fault = false := by simpa using hf
    split at h
    · rename_i i hd; exact .ran hf' i hd (effect_of_exec h)
    · rename_i e hd; cases h; exact .illegal hf' e hd rfl

end Sys2Proof.Machine
end

