-- ==== Sys2Proof/Laws/Legal.lean ====
section
/-! SUPPORT. Every update of the state keeps it legal (10_state.md R24-R26, 60_exceptions.md R212-R216). -/

namespace Sys2Proof.Machine

/-- Reserved STATUS bits are 0, said bit by bit. -/
theorem reserved_iff (v : Word) : v &&& ~~~statusDefined = 0#32 ↔ ∀ k, k < 32 → statusDefined.getLsbD k = false → v.getLsbD k = false := by
  constructor
  · intro h k hk hd
    have := congrArg (fun x => x.getLsbD k) h
    rw [BitVec.getLsbD_and, BitVec.getLsbD_not, hd] at this
    simpa [hk] using this
  · intro h
    apply BitVec.eq_of_getLsbD_eq
    intro k hk
    rw [BitVec.getLsbD_and, BitVec.getLsbD_not]
    cases hd : statusDefined.getLsbD k
    · rw [h k hk hd]; simp
    · simp

theorem StatusBit.pos_defined (b : StatusBit) : statusDefined.getLsbD b.pos = true := by cases b <;> decide

theorem legal_of_same {s t : State} (h : LegalState s) (h1 : t.status = s.status) (h2 : t.cause = s.cause) (h3 : t.faultcmd = s.faultcmd) : LegalState t := by
  simp only [LegalState, compareFlagsLegal, latchLegal, State.flag, h1, h2, h3] at h ⊢
  exact h

theorem reserved_setFlag {s : State} (b : StatusBit) (v : Bool) (h : s.status &&& ~~~statusDefined = 0#32) :
    (s.setFlag b v).status &&& ~~~statusDefined = 0#32 := by
  rw [reserved_iff] at *
  intro k hk hd
  rw [State.setFlag_status, getLsbD_withBit _ _ _ _ b.pos_lt]
  split
  · rename_i e; rw [e, StatusBit.pos_defined] at hd; cases hd
  · exact h k hk hd

theorem legal_takeFault {s : State} (h : LegalState s) {c : Cause} {w : Word} (hc : canRaise w c = true) : LegalState (s.takeFault c w) := by
  refine ⟨reserved_setFlag _ _ (reserved_setFlag _ _ h.1), ?_, ?_⟩
  · have h2 := h.2.1
    simp only [compareFlagsLegal, State.flag_takeFault] at h2 ⊢
    cases c <;> simpa [Cause.sticky] using h2
  · have : (s.takeFault c w).flag .fault = true := by rw [State.flag_takeFault]; cases c <;> simp [Cause.sticky]
    cases c <;> simp [latchLegal, this, causeCode, Cause.code, hc]

theorem legal_raise {s : State} (h : LegalState s) {b : StatusBit} (v : Bool) (hb : b = .dom ∨ b = .drop) : LegalState (s.raiseFlag b v) := by
  cases v with
  | false => exact h
  | true =>
    refine ⟨reserved_setFlag _ _ h.1, ?_, ?_⟩
    · have h2 := h.2.1
      simp only [compareFlagsLegal, State.raiseFlag, if_true, State.flag_setFlag] at h2 ⊢
      rcases hb with rfl | rfl <;> simpa using h2
    · have h2 := h.2.2
      simp only [latchLegal, State.raiseFlag, if_true, State.flag_setFlag] at h2 ⊢
      rcases hb with rfl | rfl <;> simpa using h2

theorem legal_compare {s : State} (h : LegalState s) (o : Ordering) : LegalState (s.setCompare o) := by
  refine ⟨reserved_setFlag _ _ (reserved_setFlag _ _ (reserved_setFlag _ _ h.1)), ?_, ?_⟩
  · cases o <;> simp [compareFlagsLegal, State.flag_setCompare]
  · have h2 := h.2.2
    simp only [latchLegal, State.flag_setCompare] at h2 ⊢
    simpa using h2

theorem legal_writeStatus {s : State} (h : LegalState s) (w : Word) : LegalState (s.writeStatus w) := by
  refine ⟨?_, ?_, ?_⟩
  · have := h.1
    rw [reserved_iff] at *
    intro k hk hd
    rw [State.getLsbD_writeStatus, this k hk hd]; rfl
  · have h2 := h.2.1
    simp only [compareFlagsLegal, State.flag, State.getLsbD_writeStatus, StatusBit.pos] at h2 ⊢
    simpa using h2
  · have h2 := h.2.2
    have hf : (s.writeStatus w).flag .fault = (s.flag .fault && !w.getLsbD 0) := by
      simp only [State.flag, State.getLsbD_writeStatus, StatusBit.pos]; simp
    cases h0 : w.getLsbD 0
    · have h0' : w.getLsbD StatusBit.fault.pos = false := h0
      have hc : (s.writeStatus w).cause = s.cause := by simp [State.writeStatus, h0']
      have hd : (s.writeStatus w).faultcmd = s.faultcmd := by simp [State.writeStatus, h0']
      simp only [latchLegal, hf, h0, hc, hd] at h2 ⊢
      simpa using h2
    · have h0' : w.getLsbD StatusBit.fault.pos = true := h0
      have hc : (s.writeStatus w).cause = 0#8 := by simp [State.writeStatus, h0', State.endFault]
      have hd : (s.writeStatus w).faultcmd = 0#32 := by simp [State.writeStatus, h0', State.endFault]
      simp [latchLegal, hf, h0, hc, hd]

end Sys2Proof.Machine
end

