-- ==== Sys2Proof/Tests/Slice0.lean ====
section
/-! SUPPORT. The model's own tests: ill-formed commands, decoding, one step on small states, and a witness for the
hypotheses of each statement. Expected results come from spec/95_test_vectors.md or are worked out by hand from the cited
rule. -/

namespace Sys2Proof.Machine

/-- A state right after reset with F0 to F3 written. -/
def start (f0 f1 f2 f3 : Word) : State :=
  { State.reset with f := #v[f0, f1, f2, f3, 0#32, 0#32, 0#32, 0#32, 0#32, 0#32, 0#32, 0#32, 0#32, 0#32, 0#32, 0#32] }

/-- The same, with FAULT and OVF set by an overflowing ADD (95_test_vectors.md W10). -/
def latched : State := { start 1#32 2#32 3#32 4#32 with status := 0x3#32, cause := 1#8, faultcmd := 0x00010201#32 }

/-- What the host's next command leaves: a register, STATUS and CAUSE. -/
def ran (s : State) (w : Word) (r : Reg) : Option (Word × Word × BitVec 8) :=
  match step (s.withFetchWord 32 w.toNat) with
  | .next t => some (t.reg r, t.status, t.cause)
  | _ => none

/-- A state whose next input is an access. -/
def facing (s : State) (a : Access) : State := { s with inputs := [.access a] }

/-! ### Ill-formed commands (30_encoding.md R72, R75: IMM8[7:5] is a zero field) -/

theorem test_shli_count_32_is_ill_formed : (Instr.shli 1 0 32).wellFormed = false := by decide
theorem test_shri_count_32_is_ill_formed : (Instr.shri 1 0 32).wellFormed = false := by decide
theorem test_shift_count_31_is_well_formed : (Instr.shli 1 0 31).wellFormed = true ∧ (Instr.shri 1 0 31).wellFormed = true := by
  decide

/-! ### Decoding: one word for every command, its fields written out from R71 (rd = 10, rs1 = 5, rs2 = 12, rs3 = 3) -/

theorem test_decode_nop : decode 0x00000000#32 = .ok .nop := by decide
theorem test_decode_alu_three_registers :
    decode 0x000C5A01#32 = .ok (.add 10 5 12) ∧ decode 0x000C5A02#32 = .ok (.sub 10 5 12) ∧
      decode 0x000C5A03#32 = .ok (.mul 10 5 12) ∧ decode 0x000C5A04#32 = .ok (.div 10 5 12) ∧
      decode 0x000C5A05#32 = .ok (.mod 10 5 12) ∧ decode 0x000C5A06#32 = .ok (.sdiv 10 5 12) := by decide
theorem test_decode_alu_two_registers :
    decode 0x00005A07#32 = .ok (.neg 10 5) ∧ decode 0x00005A08#32 = .ok (.inc 10 5) ∧
      decode 0x00005A09#32 = .ok (.dec 10 5) ∧ decode 0x00005A0D#32 = .ok (.mov 10 5) := by decide
theorem test_decode_shifts :
    decode 0x1D005A0A#32 = .ok (.shli 10 5 29) ∧ decode 0x13005A0B#32 = .ok (.shri 10 5 19) := by decide
theorem test_decode_cmp_ldc : decode 0x000C500C#32 = .ok (.cmp 5 12) ∧ decode 0x06000A0E#32 = .ok (.ldc 10 6) := by decide
theorem test_decode_conversions :
    decode 0x00005A10#32 = .ok (.itox 10 5) ∧ decode 0x00005A11#32 = .ok (.xtoi 10 5) ∧
      decode 0x00005A12#32 = .ok (.ftox 10 5) ∧ decode 0x00005A13#32 = .ok (.xtof 10 5) := by decide
theorem test_decode_auxiliary :
    decode 0x00005A20#32 = .ok (.abs 10 5) ∧ decode 0x00005A21#32 = .ok (.sign 10 5) ∧
      decode 0x00005A22#32 = .ok (.floor 10 5) ∧ decode 0x00005A23#32 = .ok (.ceil 10 5) ∧
      decode 0x00005A24#32 = .ok (.round 10 5) ∧ decode 0x000C5A25#32 = .ok (.min 10 5 12) ∧
      decode 0x000C5A26#32 = .ok (.max 10 5 12) ∧ decode 0x003C5A27#32 = .ok (.clamp 10 5 12 3) := by decide
theorem test_decode_engines :
    decode 0x00005A30#32 = .ok (.sqrt 10 5) ∧ decode 0x00005A40#32 = .ok (.sin 10 5) ∧
      decode 0x00005A41#32 = .ok (.cos 10 5) ∧ decode 0x00005A42#32 = .ok (.tan 10 5) ∧
      decode 0x00005A43#32 = .ok (.atan 10 5) ∧ decode 0x000C5A44#32 = .ok (.atan2 10 5 12) ∧
      decode 0x00005A48#32 = .ok (.asin 10 5) ∧ decode 0x00005A49#32 = .ok (.acos 10 5) := by decide

/-- 95_test_vectors.md, "Encoding and decode": words that are no command. -/
theorem test_illegal_words :
    [0x00000100#32, 0x0000000F#32, 0x000000FF#32, 0x00000014#32, 0x00000031#32, 0x00000045#32, 0x0000004A#32,
      0x01010201#32, 0x00110201#32, 0x00010130#32, 0x2000010A#32, 0x0800030E#32, 0x0000130E#32, 0x0001010C#32,
      0x01321027#32, 0xFFFFFFFF#32].all (fun w => ran State.reset w 0 == some (0#32, 0x9#32, 3#8)) = true := by decide

/-- The host's two entry points give the same command. -/
theorem test_decode_table_word : decodeTableWord 32 0x0300010A = some (.shli 1 0 3) := by decide

/-! ### One command on a small state: F[rd], STATUS and CAUSE afterwards -/

/-- 95_test_vectors.md V-ADD-5. -/
theorem test_add_largest_sum :
    ran (start 0x7FFF0000#32 0x0000FFFF#32 0x00000000#32 0x00000000#32) 0x00010201#32 2 =
      some (0x7FFFFFFF#32, 0x00000000#32, 0#8) := by decide

/-- 95_test_vectors.md V-ADD-3. -/
theorem test_add_negative_overflow :
    ran (start 0x80000000#32 0xFFFFFFFF#32 0x00000000#32 0x00000000#32) 0x00010201#32 2 =
      some (0x00000000#32, 0x00000003#32, 1#8) := by decide

/-- 95_test_vectors.md V-SUB-4. -/
theorem test_sub_to_min :
    ran (start 0xFFFFFFFF#32 0x7FFFFFFF#32 0x00000000#32 0x00000000#32) 0x00010202#32 2 =
      some (0x80000000#32, 0x00000000#32, 0#8) := by decide

/-- 95_test_vectors.md V-SUB-2. -/
theorem test_sub_zero_less_min_overflows :
    ran (start 0x00000000#32 0x80000000#32 0x00000000#32 0x00000000#32) 0x00010202#32 2 =
      some (0x00000000#32, 0x00000003#32, 1#8) := by decide

/-- 95_test_vectors.md V-MUL-10. -/
theorem test_mul_negative_half :
    ran (start 0xFFFF8000#32 0x00000001#32 0x00000000#32 0x00000000#32) 0x00010203#32 2 =
      some (0xFFFFFFFF#32, 0x00000000#32, 0#8) := by decide

/-- 95_test_vectors.md V-MUL-6. -/
theorem test_mul_rounds_to_overflow :
    ran (start 0x00010001#32 0x7FFF8000#32 0x00000000#32 0x00000000#32) 0x00010203#32 2 =
      some (0x00000000#32, 0x00000003#32, 1#8) := by decide

/-- 95_test_vectors.md V-DIV-6. -/
theorem test_div_truncates :
    ran (start 0xFFFF0000#32 0x00030000#32 0x00000000#32 0x00000000#32) 0x00010204#32 2 =
      some (0xFFFFAAAB#32, 0x00000000#32, 0#8) := by decide

/-- 95_test_vectors.md V-DIV-3. -/
theorem test_div_zero_by_zero :
    ran (start 0x00000000#32 0x00000000#32 0x00000000#32 0x00000000#32) 0x00010204#32 2 =
      some (0x00000000#32, 0x00000005#32, 2#8) := by decide

/-- 95_test_vectors.md V-SDIV-6. -/
theorem test_sdiv_saturates_low :
    ran (start 0xFFFF0000#32 0x00000001#32 0x00000000#32 0x00000000#32) 0x00010206#32 2 =
      some (0x80000000#32, 0x00000000#32, 0#8) := by decide

/-- 95_test_vectors.md V-SDIV-2. -/
theorem test_sdiv_by_zero :
    ran (start 0xFFFF0000#32 0x00000000#32 0x00000000#32 0x00000000#32) 0x00010206#32 2 =
      some (0x80000000#32, 0x00000000#32, 0#8) := by decide

/-- 95_test_vectors.md V-MOD-2. -/
theorem test_mod_sign_of_dividend :
    ran (start 0xFFFA8000#32 0x00020000#32 0x00000000#32 0x00000000#32) 0x00010205#32 2 =
      some (0xFFFE8000#32, 0x00000000#32, 0#8) := by decide

/-- 95_test_vectors.md V-MOD-6. -/
theorem test_mod_by_zero :
    ran (start 0x00010000#32 0x00000000#32 0x00000000#32 0x00000000#32) 0x00010205#32 2 =
      some (0x00000000#32, 0x00000005#32, 2#8) := by decide

/-- 95_test_vectors.md V-NEG-2. -/
theorem test_neg_min :
    ran (start 0x80000000#32 0x00000000#32 0x00000000#32 0x00000000#32) 0x00000107#32 1 =
      some (0x80000000#32, 0x00000000#32, 0#8) := by decide

/-- 95_test_vectors.md V-NEG-4. -/
theorem test_neg_max :
    ran (start 0x7FFFFFFF#32 0x00000000#32 0x00000000#32 0x00000000#32) 0x00000107#32 1 =
      some (0x80000001#32, 0x00000000#32, 0#8) := by decide

/-- 95_test_vectors.md V-INC-2. -/
theorem test_inc_largest :
    ran (start 0x7FFEFFFF#32 0x00000000#32 0x00000000#32 0x00000000#32) 0x00000108#32 1 =
      some (0x7FFFFFFF#32, 0x00000000#32, 0#8) := by decide

/-- 95_test_vectors.md V-INC-3. -/
theorem test_inc_overflow :
    ran (start 0x7FFF0000#32 0x00000000#32 0x00000000#32 0x00000000#32) 0x00000108#32 1 =
      some (0x00000000#32, 0x00000003#32, 1#8) := by decide

/-- 95_test_vectors.md V-DEC-2. -/
theorem test_dec_smallest :
    ran (start 0x80010000#32 0x00000000#32 0x00000000#32 0x00000000#32) 0x00000109#32 1 =
      some (0x80000000#32, 0x00000000#32, 0#8) := by decide

/-- 95_test_vectors.md V-DEC-3. -/
theorem test_dec_overflow :
    ran (start 0x8000FFFF#32 0x00000000#32 0x00000000#32 0x00000000#32) 0x00000109#32 1 =
      some (0x00000000#32, 0x00000003#32, 1#8) := by decide

/-- 95_test_vectors.md V-SHLI-2. -/
theorem test_shli_into_the_sign :
    ran (start 0x40000000#32 0x00000000#32 0x00000000#32 0x00000000#32) 0x0100010A#32 1 =
      some (0x80000000#32, 0x00000000#32, 0#8) := by decide

/-- 95_test_vectors.md V-SHLI-4. -/
theorem test_shli_31 :
    ran (start 0x00000003#32 0x00000000#32 0x00000000#32 0x00000000#32) 0x1F00010A#32 1 =
      some (0x80000000#32, 0x00000000#32, 0#8) := by decide

/-- 95_test_vectors.md V-SHRI-3. -/
theorem test_shri_rounds_down :
    ran (start 0xFFFFFFFD#32 0x00000000#32 0x00000000#32 0x00000000#32) 0x0100010B#32 1 =
      some (0xFFFFFFFE#32, 0x00000000#32, 0#8) := by decide

/-- 95_test_vectors.md V-SHRI-4. -/
theorem test_shri_31_of_min :
    ran (start 0x80000000#32 0x00000000#32 0x00000000#32 0x00000000#32) 0x1F00010B#32 1 =
      some (0xFFFFFFFF#32, 0x00000000#32, 0#8) := by decide

/-- 95_test_vectors.md V-CMP-2. -/
theorem test_cmp_signed_less :
    ran (start 0x80000000#32 0x7FFFFFFF#32 0x00000000#32 0x00000000#32) 0x0001000C#32 0 =
      some (0x80000000#32, 0x00000100#32, 0#8) := by decide

/-- 95_test_vectors.md V-CMP-5. -/
theorem test_cmp_signed_greater :
    ran (start 0x7FFFFFFF#32 0x80000000#32 0x00000000#32 0x00000000#32) 0x0001000C#32 0 =
      some (0x7FFFFFFF#32, 0x00000400#32, 0#8) := by decide

/-- 95_test_vectors.md V-MOV-1. -/
theorem test_mov :
    ran (start 0x12345678#32 0x00000000#32 0x00000000#32 0x00000000#32) 0x0000010D#32 1 =
      some (0x12345678#32, 0x00000000#32, 0#8) := by decide

/-- 95_test_vectors.md V-LDC-3. -/
theorem test_ldc_min :
    ran (start 0x00000000#32 0x00000000#32 0x00000000#32 0x00000000#32) 0x0200030E#32 3 =
      some (0x80000000#32, 0x00000000#32, 0#8) := by decide

/-- 95_test_vectors.md V-LDC-8. -/
theorem test_ldc_two_pi :
    ran (start 0x00000000#32 0x00000000#32 0x00000000#32 0x00000000#32) 0x0700030E#32 3 =
      some (0x0006487E#32, 0x00000000#32, 0#8) := by decide

/-- 95_test_vectors.md V-NOP-1. -/
theorem test_nop :
    ran (start 0x00000000#32 0x00000000#32 0x00000000#32 0x00000000#32) 0x00000000#32 0 =
      some (0x00000000#32, 0x00000000#32, 0#8) := by decide

/-- 95_test_vectors.md V-ITOX-4. -/
theorem test_itox_lowest :
    ran (start 0xFFFF8000#32 0x00000000#32 0x00000000#32 0x00000000#32) 0x00000110#32 1 =
      some (0x80000000#32, 0x00000000#32, 0#8) := by decide

/-- 95_test_vectors.md V-ITOX-3. -/
theorem test_itox_one_past :
    ran (start 0x00008000#32 0x00000000#32 0x00000000#32 0x00000000#32) 0x00000110#32 1 =
      some (0x00000000#32, 0x00000003#32, 1#8) := by decide

/-- 95_test_vectors.md V-XTOI-1. -/
theorem test_xtoi_rounds_down :
    ran (start 0xFFFF8000#32 0x00000000#32 0x00000000#32 0x00000000#32) 0x00000111#32 1 =
      some (0xFFFFFFFF#32, 0x00000000#32, 0#8) := by decide

/-- 95_test_vectors.md V-XTOI-4. -/
theorem test_xtoi_min :
    ran (start 0x80000000#32 0x00000000#32 0x00000000#32 0x00000000#32) 0x00000111#32 1 =
      some (0xFFFF8000#32, 0x00000000#32, 0#8) := by decide

/-- 95_test_vectors.md V-FTOX-5. -/
theorem test_ftox_negative_half :
    ran (start 0xB7000000#32 0x00000000#32 0x00000000#32 0x00000000#32) 0x00000112#32 1 =
      some (0xFFFFFFFF#32, 0x00000000#32, 0#8) := by decide

/-- 95_test_vectors.md V-FTOX-8. -/
theorem test_ftox_one_past :
    ran (start 0x47000000#32 0x00000000#32 0x00000000#32 0x00000000#32) 0x00000112#32 1 =
      some (0x00000000#32, 0x00000003#32, 1#8) := by decide

/-- 95_test_vectors.md V-XTOF-5. -/
theorem test_xtof_tie_down :
    ran (start 0x01000001#32 0x00000000#32 0x00000000#32 0x00000000#32) 0x00000113#32 1 =
      some (0x43800000#32, 0x00000000#32, 0#8) := by decide

/-- 95_test_vectors.md V-XTOF-6. -/
theorem test_xtof_tie_up :
    ran (start 0x01000003#32 0x00000000#32 0x00000000#32 0x00000000#32) 0x00000113#32 1 =
      some (0x43800002#32, 0x00000000#32, 0#8) := by decide

/-- 95_test_vectors.md V-ABS-2. -/
theorem test_abs_min :
    ran (start 0x80000000#32 0x00000000#32 0x00000000#32 0x00000000#32) 0x00000120#32 1 =
      some (0x80000000#32, 0x00000000#32, 0#8) := by decide

/-- 95_test_vectors.md V-ABS-4. -/
theorem test_abs_minus_one_unit :
    ran (start 0xFFFFFFFF#32 0x00000000#32 0x00000000#32 0x00000000#32) 0x00000120#32 1 =
      some (0x00000001#32, 0x00000000#32, 0#8) := by decide

/-- 95_test_vectors.md V-SIGN-2. -/
theorem test_sign_negative :
    ran (start 0xFFFFFFFF#32 0x00000000#32 0x00000000#32 0x00000000#32) 0x00000121#32 1 =
      some (0xFFFF0000#32, 0x00000000#32, 0#8) := by decide

/-- 95_test_vectors.md V-SIGN-1. -/
theorem test_sign_positive :
    ran (start 0x00000001#32 0x00000000#32 0x00000000#32 0x00000000#32) 0x00000121#32 1 =
      some (0x00010000#32, 0x00000000#32, 0#8) := by decide

/-- 95_test_vectors.md V-FLOOR-1. -/
theorem test_floor_negative :
    ran (start 0xFFFF8000#32 0x00000000#32 0x00000000#32 0x00000000#32) 0x00000122#32 1 =
      some (0xFFFF0000#32, 0x00000000#32, 0#8) := by decide

/-- 95_test_vectors.md V-FLOOR-4. -/
theorem test_floor_max :
    ran (start 0x7FFFFFFF#32 0x00000000#32 0x00000000#32 0x00000000#32) 0x00000122#32 1 =
      some (0x7FFF0000#32, 0x00000000#32, 0#8) := by decide

/-- 95_test_vectors.md V-CEIL-7. -/
theorem test_ceil_near_min :
    ran (start 0x80000001#32 0x00000000#32 0x00000000#32 0x00000000#32) 0x00000123#32 1 =
      some (0x80010000#32, 0x00000000#32, 0#8) := by decide

/-- 95_test_vectors.md V-CEIL-4. -/
theorem test_ceil_overflow :
    ran (start 0x7FFF0001#32 0x00000000#32 0x00000000#32 0x00000000#32) 0x00000123#32 1 =
      some (0x00000000#32, 0x00000003#32, 1#8) := by decide

/-- 95_test_vectors.md V-ROUND-2. -/
theorem test_round_negative_half :
    ran (start 0xFFFF8000#32 0x00000000#32 0x00000000#32 0x00000000#32) 0x00000124#32 1 =
      some (0xFFFF0000#32, 0x00000000#32, 0#8) := by decide

/-- 95_test_vectors.md V-ROUND-9. -/
theorem test_round_overflow :
    ran (start 0x7FFF8000#32 0x00000000#32 0x00000000#32 0x00000000#32) 0x00000124#32 1 =
      some (0x00000000#32, 0x00000003#32, 1#8) := by decide

/-- 95_test_vectors.md V-MIN-3. -/
theorem test_min_signed :
    ran (start 0xFFFFFFFF#32 0x00000000#32 0x00000000#32 0x00000000#32) 0x00010225#32 2 =
      some (0xFFFFFFFF#32, 0x00000000#32, 0#8) := by decide

/-- 95_test_vectors.md V-MAX-3. -/
theorem test_max_signed :
    ran (start 0xFFFFFFFF#32 0x00000000#32 0x00000000#32 0x00000000#32) 0x00010226#32 2 =
      some (0x00000000#32, 0x00000000#32, 0#8) := by decide

/-- 95_test_vectors.md V-CLAMP-1. -/
theorem test_clamp_above :
    ran (start 0x00000000#32 0x00050000#32 0x00000000#32 0x00010000#32) 0x00321027#32 0 =
      some (0x00010000#32, 0x00000000#32, 0#8) := by decide

/-- 95_test_vectors.md V-CLAMP-4. -/
theorem test_clamp_crossed_bounds :
    ran (start 0x00000000#32 0x00008000#32 0x00010000#32 0x00000000#32) 0x00321027#32 0 =
      some (0x00000000#32, 0x00000000#32, 0#8) := by decide

/-- 95_test_vectors.md V-SQRT-4. -/
theorem test_sqrt_two_units :
    ran (start 0x00000002#32 0x00000000#32 0x00000000#32 0x00000000#32) 0x00000130#32 1 =
      some (0x0000016A#32, 0x00000000#32, 0#8) := by decide

/-- 95_test_vectors.md V-SQRT-6. -/
theorem test_sqrt_negative :
    ran (start 0xFFFC0000#32 0x00000000#32 0x00000000#32 0x00000000#32) 0x00000130#32 1 =
      some (0xFFFE0000#32, 0x00000010#32, 0#8) := by decide

/-- 95_test_vectors.md V-SIN-4. -/
theorem test_sin_of_two_pi :
    ran (start 0x0006487E#32 0x00000000#32 0x00000000#32 0x00000000#32) 0x00000140#32 1 =
      some (0x00000000#32, 0x00000000#32, 0#8) := by decide

/-- 95_test_vectors.md V-COS-2. -/
theorem test_cos_of_minus_quarter :
    ran (start 0xFFFE6DE1#32 0x00000000#32 0x00000000#32 0x00000000#32) 0x00000141#32 1 =
      some (0x00000000#32, 0x00000000#32, 0#8) := by decide

/-- 95_test_vectors.md V-ATAN-1. -/
theorem test_atan_of_zero :
    ran (start 0x00000000#32 0x00000000#32 0x00000000#32 0x00000000#32) 0x00000143#32 1 =
      some (0x00000000#32, 0x00000000#32, 0#8) := by decide

/-- 95_test_vectors.md V-ASIN-5. -/
theorem test_asin_outside :
    ran (start 0x80000000#32 0x00000000#32 0x00000000#32 0x00000000#32) 0x00000148#32 1 =
      some (0x00000000#32, 0x00000010#32, 0#8) := by decide

/-- 95_test_vectors.md V-ACOS-2. -/
theorem test_acos_lower_end :
    ran (start 0xFFFF0000#32 0x00000000#32 0x00000000#32 0x00000000#32) 0x00000149#32 1 =
      some (0x0003243E#32, 0x00000000#32, 0#8) := by decide

/-- 95_test_vectors.md V-ACOS-4. -/
theorem test_acos_outside :
    ran (start 0x00010001#32 0x00000000#32 0x00000000#32 0x00000000#32) 0x00000149#32 1 =
      some (0x0001921F#32, 0x00000010#32, 0#8) := by decide

/-- 95_test_vectors.md V-SIN-5: the kernel's argument. -/
theorem test_sin_reduces_max :
    exec (.sin 1 0) (start 0x7FFFFFFF#32 0#32 0#32 0#32) =
      .next ((start 0x7FFFFFFF#32 0#32 0#32 0#32).setReg 1 (word (sinKernel 82237))) := rfl

/-- 95_test_vectors.md V-COS-3: the quarter turn is added exactly. -/
theorem test_cos_reduces_max : fxCOS 2147483647 = sinKernel 185180 :=
  congrArg sinKernel (by decide : reduce (2147483647 + piOver2) = 185180)

/-- 95_test_vectors.md V-TAN-2. -/
theorem test_tan_of_quarter :
    exec (.tan 1 0) (start 0x0001921F#32 0#32 0#32 0#32) =
      .next ((start 0x0001921F#32 0#32 0#32 0#32).setReg 1
        (word (fxSDIV (sinKernel 102943) (sinKernel 205886)))) := rfl

/-- 95_test_vectors.md V-ATAN-3. -/
theorem test_atan_of_min :
    exec (.atan 1 0) (start 0x80000000#32 0#32 0#32 0#32) =
      .next ((start 0x80000000#32 0#32 0#32 0#32).setReg 1 (word (atanFn (-2147483648)))) := rfl

/-- 95_test_vectors.md V-ATAN2-1: y is rs1 and x is rs2. -/
theorem test_atan2_operands :
    exec (.atan2 2 0 1) (start 0x00010000#32 0x00020000#32 0#32 0#32) =
      .next ((start 0x00010000#32 0x00020000#32 0#32 0#32).setReg 2 (word (atan2Fn 65536 131072))) := rfl

/-- 95_test_vectors.md V-ASIN-8: the largest quotient. -/
theorem test_asin_below_one :
    (do let t ← fxMUL 65535 65535
        let u ← fxSUB one t
        fxDIV 65535 (fxSQRT u)) = (.ok 11864369 : Fx) := by decide

/-! ### The host window -/

/-- 95_test_vectors.md W2 and W3. -/
theorem test_status_writes :
    ({ latched with status := 0x23F#32 }.writeStatus 0xFFFFFFFF#32).status = 0x200#32 ∧
      (latched.writeStatus 2#32).status = 1#32 ∧ (latched.writeStatus 2#32).cause = 1#8 := by decide

/-- 95_test_vectors.md W10: a discarded command. -/
theorem test_command_discarded :
    step (facing latched (commandAccess 0#32)) =
      .next { latched with status := 0x23#32, answer := some .ack } := rfl

/-- 95_test_vectors.md W6 and W1: CTRL reads back bit 0 only; CMD reads 0. -/
theorem test_reads :
    (State.reset.writeCtrl 0xFFFFFFFF#32).hostRead 0x50#8 = some 1#32 ∧ latched.hostRead 0x40#8 = some 0#32 ∧
      latched.hostRead 0x54#8 = none := by decide

/-- 20_memory.md R60, R53: the step serves the first access and leaves the rest. -/
theorem test_inputs_in_order :
    step { State.reset with inputs := [.access ⟨.word, 0x04#8, .write 7#32⟩, .reset] } =
      .next { start 0#32 7#32 0#32 0#32 with inputs := [.reset], answer := some .ack } := rfl

/-! ### Witnesses: concrete values that meet the hypotheses of each statement -/

theorem witness_DecodeGivesBackTheEncodedCommand :
    (Instr.shri 15 15 31).wellFormed = true ∧ (Instr.clamp 15 0 15 7).wellFormed = true := by decide

theorem witness_EveryLegalWordIsTheEncodingOfItsCommand :
    decode 0x1F00FF0A#32 = .ok (.shli 15 15 31) ∧ decode 0x0700000E#32 = .ok (.ldc 0 7) := by decide

theorem witness_AWordSpellsAtMostOneRow :
    decode 0x0300010A#32 = .ok (.shli 1 0 3) ∧
      0x0300010A#32 &&& (Instr.shli 0 0 0).format.mask = matchOf (Instr.shli 0 0 0).opcode := by decide

/-- One unused field set, for every format. -/
theorem witness_UnusedFieldSetIsIllegal :
    State.reset.flag .fault = false ∧
      [(0x00000100#32, Format.fn), (0x00010130#32, .f2r), (0x00110201#32, .f3r), (0x01321027#32, .f4r),
        (0x2000010A#32, .fri), (0x0800030E#32, .fk), (0x0001010C#32, .fc)].all
        (fun p => formatOfOp (p.1.toNat % 2 ^ 8) == some p.2 && !unusedFieldsZero p.1 p.2) = true := by decide

theorem witness_ReservedOpIsIllegal :
    State.reset.flag .fault = false ∧
      ∀ op ∈ [0x0F, 0x14, 0x1F, 0x28, 0x2F, 0x31, 0x3F, 0x45, 0x47, 0x4A, 0xFF],
        isReservedOp ((BitVec.ofNat 32 op).toNat % 2 ^ 8) := by decide

theorem witness_StepRunsTheDecodedCommand :
    (State.reset.issue 0x00010201#32).inputs = .access ⟨.word, 0x40#8, .write 0x00010201#32⟩ :: [] ∧
      (State.reset.issue 0x00010201#32).flag .fault = false ∧ decode 0x00010201#32 = .ok (.add 2 0 1) ∧
      decode 0x00000100#32 = .error (.reservedFieldNotZero 0#8) := by decide

theorem witness_CommandIsDiscardedWhileAFaultIsLatched :
    (facing latched (commandAccess 0x00010201#32)).inputs = .access ⟨.word, 0x40#8, .write 0x00010201#32⟩ :: [] ∧
      (facing latched (commandAccess 0x00010201#32)).flag .fault = true := by decide

/-- The premise of every register of the map, at the boundary offsets. -/
theorem witness_ReadReturnsTheRegisterAndChangesNothing :
    (∃ i : Reg, (0x00#8).toNat = 4 * i.val ∧ 1#32 = latched.reg i) ∧
      (∃ i : Reg, (0x3C#8).toNat = 4 * i.val ∧ 0#32 = latched.reg i) ∧
      0x3#32 = latched.status &&& 0x0000073F#32 ∧ (1#32).toNat = latched.cause.toNat ∧
      0x00010201#32 = latched.faultcmd ∧ (0#32).toNat = (if latched.irqen then 1 else 0) ∧
      (facing latched ⟨.word, 0x3C#8, .read⟩).inputs = .access ⟨.word, 0x3C#8, .read⟩ :: [] :=
  ⟨⟨0, by decide⟩, ⟨15, by decide⟩, by decide, by decide, by decide, by decide, by decide⟩

theorem witness_DataRegisterWriteChangesOnlyThatRegister :
    (facing latched ⟨.word, 0x3C#8, .write 9#32⟩).inputs =
      .access ⟨.word, BitVec.ofNat 8 (4 * (15 : Reg).val), .write 9#32⟩ :: [] := by decide

theorem witness_StatusWriteClearsTheBitsWrittenOne :
    (facing latched ⟨.word, 0x44#8, .write 3#32⟩).inputs = .access ⟨.word, 0x44#8, .write 3#32⟩ :: [] ∧
      (3#32).getLsbD 0 = true ∧ (2#32).getLsbD 0 = false := by decide

theorem witness_ReadOnlyAndControlWrites :
    (facing latched ⟨.word, 0x48#8, .write 0#32⟩).inputs = .access ⟨.word, 0x48#8, .write 0#32⟩ :: [] ∧
      (facing latched ⟨.word, 0x4C#8, .write 0#32⟩).inputs = .access ⟨.word, 0x4C#8, .write 0#32⟩ :: [] ∧
      (facing latched ⟨.word, 0x50#8, .write 3#32⟩).inputs = .access ⟨.word, 0x50#8, .write 3#32⟩ :: [] := by decide

/-- The lowest and the highest reserved bit of each control register. -/
theorem witness_ReservedBitsReadZero :
    ((6 : Nat) = 6 ∨ (7 : Nat) = 7 ∨ 11 ≤ (31 : Nat)) ∧ 8 ≤ (8 : Nat) ∧ 1 ≤ (1 : Nat) ∧
      ({ State.reset with status := 0xFFFFFFFF#32 } : State).statusWord = 0x0000073F#32 := by decide

theorem witness_IrqFollowsFaultAndEnable :
    Latches (writeCommand 0xFF#32 { State.reset with irqen := true }) { State.reset with irqen := true } .illegalCommand
      0xFF#32 ∧ (1#32).getLsbD 0 = true ∧ (2#32).getLsbD 0 = false :=
  ⟨latches_takeFault _ _ _, by decide, by decide⟩

/-- A byte access, a misaligned one and the first reserved offset; the last offset of the map is none of them. -/
theorem witness_BadAccessIsABusError :
    (Access.mk .byte 0x00#8 .read).width ≠ .word ∧ (Access.mk .word 0x06#8 .read).offset.toNat % 4 ≠ 0 ∧
      0x54 ≤ (Access.mk .word 0x54#8 .read).offset.toNat ∧
      isBadInput (.access ⟨.word, 0x50#8, .read⟩) = false := by decide

theorem witness_StepStopsOnlyOnABadAccess :
    (∀ x, (facing latched ⟨.word, 0x50#8, .read⟩).inputs.head? = some x → isBadInput x = false) ∧
      (∀ x, State.reset.inputs.head? = some x → isBadInput x = false) ∧ State.reset.inputs = [] := by
  refine ⟨?_, ?_, rfl⟩
  · intro x h; cases h; decide
  · intro x h; cases h

theorem witness_WindowIsTheBlockAtFxuBase : Config.fxuBase + 0x100 ≤ Config.fxuBase + 0x100 := Nat.le_refl _

theorem witness_ResetClearsTheControlState :
    ({ latched with inputs := [.reset] } : State).inputs = .reset :: [] := by decide

/-- A legal state with a fault latched, and a step of it. -/
theorem witness_EveryStepKeepsTheInvariant :
    LegalState (facing latched (commandAccess 0#32)) ∧
      step (facing latched (commandAccess 0#32)) = .next { latched with status := 0x23#32, answer := some .ack } :=
  ⟨⟨by decide, by decide, by decide⟩, rfl⟩

/-- One command for each cause a command can raise. -/
theorem witness_FaultsFollowTheCauseTable :
    (start 0x7FFFFFFF#32 1#32 0#32 0#32).flag .fault = false ∧
      exec (.add 2 0 1) (start 0x7FFFFFFF#32 1#32 0#32 0#32) =
        .next ((start 0x7FFFFFFF#32 1#32 0#32 0#32).takeFault .overflow 0x00010201#32) ∧
      ((start 0x7FFFFFFF#32 1#32 0#32 0#32).takeFault .overflow 0x00010201#32).flag .fault = true ∧
      exec (.div 2 0 1) (start 1#32 0#32 0#32 0#32) =
        .next ((start 1#32 0#32 0#32 0#32).takeFault .divideByZero 0x00010204#32) ∧
      ((start 1#32 0#32 0#32 0#32).takeFault .divideByZero 0x00010204#32).flag .fault = true :=
  ⟨by decide, rfl, by decide, rfl, by decide⟩

/-- A CMP that sets LT. -/
theorem witness_OnlyCmpChangesTheComparisonFlags :
    step ((start 1#32 2#32 0#32 0#32).issue 0x0001000C#32) =
        .next { (start 1#32 2#32 0#32 0#32).setFlag .lt true with answer := some .ack } ∧
      ({ (start 1#32 2#32 0#32 0#32).setFlag .lt true with answer := some .ack } : State).flag .lt ≠
        ((start 1#32 2#32 0#32 0#32).issue 0x0001000C#32).flag .lt :=
  ⟨rfl, by decide⟩

theorem witness_LatchedFaultIsKeptUntilCleared :
    (facing latched ⟨.word, 0x44#8, .write 2#32⟩).flag .fault = true ∧
      step (facing latched ⟨.word, 0x44#8, .write 2#32⟩) =
        .next { latched with status := 1#32, answer := some .ack } ∧
      ({ latched with status := 1#32, answer := some .ack } : State).flag .fault = true :=
  ⟨by decide, rfl, by decide⟩

theorem witness_StatusWriteEndsTheFaultState :
    (facing latched ⟨.word, 0x44#8, .write 1#32⟩).flag .fault = true ∧
      step (facing latched ⟨.word, 0x44#8, .write 1#32⟩) = .next { latched.endFault with answer := some .ack } ∧
      ({ latched.endFault with answer := some .ack } : State).flag .fault = false ∧
      (1#32).getLsbD 0 = true ∧ StatusBit.ovf ≠ .fault ∧ (1#32).getLsbD StatusBit.ovf.pos = false :=
  ⟨by decide, rfl, by decide, by decide, by decide, by decide⟩

/-- Two states that agree on F0 and F1 only. -/
theorem witness_OutcomeDependsOnTheSourcesAlone :
    (∀ r ∈ sourcesOf (.add 2 0 1), (start 1#32 2#32 3#32 4#32).reg r = (start 1#32 2#32 7#32 8#32).reg r) ∧
      (start 1#32 2#32 3#32 4#32).flag .fault = false ∧ (start 1#32 2#32 7#32 8#32).flag .fault = false ∧
      exec (.add 2 0 1) (start 1#32 2#32 3#32 4#32) = .next (start 1#32 2#32 3#32 4#32) ∧
      exec (.add 2 0 1) (start 1#32 2#32 7#32 8#32) = .next (start 1#32 2#32 3#32 8#32) :=
  ⟨by decide, by decide, by decide, rfl, rfl⟩

/-- The same two states, by a CMP, which writes the flags of both, and by a SQRT of a negative operand, which raises DOM
in both. -/
theorem witness_OutcomeDependsOnTheSourcesAlone_flags :
    isCmp (.cmp 0 1) = true ∧
      exec (.cmp 0 1) (start 1#32 2#32 3#32 4#32) = .next ((start 1#32 2#32 3#32 4#32).setFlag .lt true) ∧
      exec (.cmp 0 1) (start 1#32 2#32 7#32 8#32) = .next ((start 1#32 2#32 7#32 8#32).setFlag .lt true) ∧
      exec (.sqrt 1 0) (start 0xFFFC0000#32 0#32 3#32 4#32) =
        .next ((start 0xFFFC0000#32 0xFFFE0000#32 3#32 4#32).setFlag .dom true) ∧
      exec (.sqrt 1 0) (start 0xFFFC0000#32 0#32 7#32 8#32) =
        .next ((start 0xFFFC0000#32 0xFFFE0000#32 7#32 8#32).setFlag .dom true) :=
  ⟨rfl, rfl, rfl, rfl, rfl⟩

/-- The largest sum that fits, and the next. -/
theorem witness_AddIsExactOrOverflows :
    fits32 ((start 0x7FFFFFFE#32 1#32 0#32 0#32).operand 0 + (start 0x7FFFFFFE#32 1#32 0#32 0#32).operand 1) ∧
      ¬fits32 ((start 0x7FFFFFFF#32 1#32 0#32 0#32).operand 0 + (start 0x7FFFFFFF#32 1#32 0#32 0#32).operand 1) := by
  decide

theorem witness_SubIsExactOrOverflows :
    fits32 ((start 0x80000001#32 1#32 0#32 0#32).operand 0 - (start 0x80000001#32 1#32 0#32 0#32).operand 1) ∧
      ¬fits32 ((start 0x80000000#32 1#32 0#32 0#32).operand 0 - (start 0x80000000#32 1#32 0#32 0#32).operand 1) := by
  decide

/-- Products that pass both tests, fail the first (V-MUL-5) and fail only the second (V-MUL-6). -/
theorem witness_MulIsNearestOrOverflows :
    (-2 ^ 47 ≤ (2147483647 : Int) * 65536 ∧ (2147483647 : Int) * 65536 ≤ 2 ^ 47 - 1 ∧
        IsNearestAway (2147483647 * 65536) 65536 2147483647 ∧ fits32 2147483647) ∧
      ¬(-2147483648 : Int) * -65536 ≤ 2 ^ 47 - 1 ∧
      ((65537 : Int) * 2147450880 ≤ 2 ^ 47 - 1 ∧ IsNearestAway (65537 * 2147450880) 65536 2147483648 ∧
        ¬fits32 2147483648) := by
  unfold IsNearestAway
  decide

/-- Divisor zero; the largest quotient that fits (V-DIV-15) and the next (V-DIV-16). -/
theorem witness_DivTruncatesOrFaults :
    (start 5#32 0#32 0#32 0#32).operand 1 = 0 ∧ (start 0x7FFF#32 1#32 0#32 0#32).operand 1 ≠ 0 ∧
      (IsTruncatedDivision (0x7FFF * 2 ^ 16) 1 0x7FFF0000 0 ∧ fits32 0x7FFF0000) ∧
      (IsTruncatedDivision (0x8000 * 2 ^ 16) 1 0x80000000 0 ∧ ¬fits32 0x80000000) := by
  unfold IsTruncatedDivision
  decide

/-- The three signs of a dividend over zero, and quotients inside, above and below the range. -/
theorem witness_SdivSaturates :
    (start 5#32 0#32 0#32 0#32).operand 1 = 0 ∧ (start 5#32 1#32 0#32 0#32).operand 1 ≠ 0 ∧
      (IsTruncatedDivision (0x7FFF * 2 ^ 16) 1 0x7FFF0000 0 ∧ fits32 0x7FFF0000) ∧
      (IsTruncatedDivision (0x8000 * 2 ^ 16) 1 0x80000000 0 ∧ 2 ^ 31 - 1 < (0x80000000 : Int)) ∧
      (IsTruncatedDivision (-0x8001 * 2 ^ 16) 1 (-0x80010000) 0 ∧ (-0x80010000 : Int) < -2 ^ 31) := by
  unfold IsTruncatedDivision
  decide

theorem witness_ModIsTheTruncatedRemainder :
    (start 5#32 0#32 0#32 0#32).operand 1 = 0 ∧ (start 0x80000000#32 0xFFFFFFFF#32 0#32 0#32).operand 1 ≠ 0 := by decide

theorem witness_NegWrapsOnlyAtMinValue :
    (start 0x80000000#32 0#32 0#32 0#32).reg 0 = 0x80000000#32 ∧
      (start 0x80000001#32 0#32 0#32 0#32).reg 0 ≠ 0x80000000#32 := by decide

/-- V-INC-2, V-INC-3, V-DEC-2, V-DEC-3: the last operand that fits and the first that does not. -/
theorem witness_IncAndDecMoveByOneOrOverflow :
    (start 0x7FFEFFFF#32 0#32 0#32 0#32).operand 0 ≤ 2 ^ 31 - 1 - 65536 ∧
      2 ^ 31 - 1 - 65536 < (start 0x7FFF0000#32 0#32 0#32 0#32).operand 0 ∧
      -2 ^ 31 + 65536 ≤ (start 0x80010000#32 0#32 0#32 0#32).operand 0 ∧
      (start 0x8000FFFF#32 0#32 0#32 0#32).operand 0 < -2 ^ 31 + 65536 := by decide

theorem witness_ShiftsMoveTheBits : (0 : Nat) < 32 ∧ (31 : Nat) < 32 := by decide

theorem witness_IntegerConversions :
    (-32768 ≤ (start 0xFFFF8000#32 0#32 0#32 0#32).operand 0 ∧ (start 0x7FFF#32 0#32 0#32 0#32).operand 0 ≤ 32767) ∧
      (start 0xFFFF7FFF#32 0#32 0#32 0#32).operand 0 < -32768 ∧ 32767 < (start 0x8000#32 0#32 0#32 0#32).operand 0 := by
  decide

theorem witness_IntegerRoundTrip :
    -32768 ≤ (start 0xFFFF8000#32 0#32 0#32 0#32).operand 0 ∧ (start 0xFFFF8000#32 0#32 0#32 0#32).operand 0 ≤ 32767 := by
  decide

/-- A NaN and an infinity; a finite word whose result fits (V-FTOX-10) and one whose result does not (V-FTOX-8). -/
theorem witness_FtoxRoundsTheExactValue :
    isNaNOrInfinity 0x7FC00000#32 ∧ isNaNOrInfinity 0xFF800000#32 ∧
      (¬isNaNOrInfinity 0x46FFFFFF#32 ∧ IsRoundedAway (binary32Value 0x46FFFFFF#32 * 65536) 2147483520 ∧
        fits32 2147483520) ∧
      (¬isNaNOrInfinity 0x47000000#32 ∧ IsRoundedAway (binary32Value 0x47000000#32 * 65536) 2147483648 ∧
        ¬fits32 2147483648) := by
  norm_num [isNaNOrInfinity, IsRoundedAway, binary32Value, fits32]

/-- V-XTOF-5: 0x01000001 lies halfway between two binary32 values. -/
theorem witness_XtofIsNearestEven :
    (start 0#32 0#32 0#32 0#32).operand 0 = 0 ∧ ¬isNaNOrInfinity 0x43800001#32 ∧
      binary32Value 0x43800001#32 ≠ binary32Value 0x43800000#32 ∧
      |binary32Value 0x43800000#32 - 16777217 / 65536| = |binary32Value 0x43800001#32 - 16777217 / 65536| := by
  refine ⟨by decide, ?_, ?_, ?_⟩ <;> norm_num [isNaNOrInfinity, binary32Value, abs_of_neg, abs_of_pos]

theorem witness_AbsAndSign :
    (start 0x80000000#32 0#32 0#32 0#32).reg 0 = 0x80000000#32 ∧
      (start 0x80000001#32 0#32 0#32 0#32).reg 0 ≠ 0x80000000#32 := by decide

theorem witness_FloorAndCeil :
    (start 0x7FFF0000#32 0#32 0#32 0#32).operand 0 ≤ 0x7FFF0000 ∧
      0x7FFF0000 < (start 0x7FFF0001#32 0#32 0#32 0#32).operand 0 := by decide

theorem witness_RoundIsNearestAwayFromZero :
    (start 0x7FFF7FFF#32 0#32 0#32 0#32).operand 0 < 0x7FFF8000 ∧
      0x7FFF8000 ≤ (start 0x7FFF8000#32 0#32 0#32 0#32).operand 0 := by decide

theorem witness_SinKernelMeetsItsLaws : -205887 < (205887 : Int) ∧ -205887 < (-205886 : Int) ∧ (-205886 : Int) < 205887 := by
  decide

/-- 0 and a turn; 1 and -1. -/
theorem witness_SinIsPeriodicAndOdd :
    (start 0#32 0#32 0#32 0#32).operand 0 = 0 ∧
      (start 0x0006487E#32 0#32 0#32 0#32).operand 0 = (start 0#32 0#32 0#32 0#32).operand 0 + 411774 ∧
      (start 0xFFFFFFFF#32 0#32 0#32 0#32).operand 0 = -(start 1#32 0#32 0#32 0#32).operand 0 ∧
      ¬IsReduced ((start 1#32 0#32 0#32 0#32).operand 0) 205887 ∧
      (∃ t, exec (.sin 2 0) (start 1#32 0#32 0#32 0#32) = .next t) := by
  refine ⟨by decide, by decide, by decide, ?_, ⟨_, rfl⟩⟩
  rintro ⟨_, _, k, hk⟩
  have h : (start 1#32 0#32 0#32 0#32).operand 0 = 1 := by decide
  omega

/-- The angle 0, whose cosine is near 1, and minus a quarter turn, whose cosine is 0. -/
theorem witness_TanIsTheSaturatingQuotient :
    (start 0#32 0#32 0#32 0#32).operand 0 = 0 ∧ IsReduced (0 + 102943) 102943 ∧ sinKernel 102943 ≠ 0 ∧
      (start 0xFFFE6DE1#32 0#32 0#32 0#32).operand 0 = -102943 ∧ IsReduced (-102943 + 102943) 0 ∧ sinKernel 0 = 0 := by
  refine ⟨by decide, ⟨by decide, by decide, 0, by decide⟩, ?_, by decide, ⟨by decide, by decide, 0, by decide⟩, rfl⟩
  have h : sinKernel 102943 = 65533 + (Config.sinQuarterRaw.val : Int) := rfl
  omega

theorem witness_AtanMeetsItsLaws : fits32 (-2147483647) ∧ (-2147483647 : Int) ≠ -2 ^ 31 := by decide

theorem witness_Atan2MeetsItsLaws :
    fits32 2147483647 ∧ fits32 (-2147483648) ∧ (2147483647 : Int) ≠ 0 ∧ (2147483647 : Int) ≠ -2 ^ 31 := by decide

/-- Both sides of both ends, and the ends. -/
theorem witness_AsinIsTheComposition :
    (start 0x00010001#32 0#32 0#32 0#32).operand 0 > 65536 ∧ (start 0xFFFEFFFF#32 0#32 0#32 0#32).operand 0 < -65536 ∧
      (start 0x00010000#32 0#32 0#32 0#32).operand 0 = 65536 ∧ (start 0xFFFF0000#32 0#32 0#32 0#32).operand 0 = -65536 ∧
      (start 0x0000FFFF#32 0#32 0#32 0#32).operand 0 < 65536 ∧
      -65536 < (start 0xFFFF0001#32 0#32 0#32 0#32).operand 0 := by decide

theorem witness_AsinIsOdd :
    (start 0xFFFF0001#32 0#32 0#32 0#32).operand 0 = -(start 0x0000FFFF#32 0#32 0#32 0#32).operand 0 ∧
      (∃ t, exec (.asin 2 0) (start 0x0000FFFF#32 0#32 0#32 0#32) = .next t) ∧
      (∃ t, exec (.asin 2 0) (start 0xFFFF0001#32 0#32 0#32 0#32) = .next t) :=
  ⟨by decide, (exec_effect _ _).imp fun _ h => h.1, (exec_effect _ _).imp fun _ h => h.1⟩

theorem witness_AcosIsPiOver2LessAsin :
    (start 0xFFFF0000#32 0#32 0#32 0#32).operand 0 ≤ -65536 ∧ 65536 ≤ (start 0x00010000#32 0#32 0#32 0#32).operand 0 ∧
      (start 0#32 0#32 0#32 0#32).operand 0 = 0 := by decide

end Sys2Proof.Machine
end

/-! SUPPORT. The statements about the state, STATUS and the invariant (10_state.md R24-R29, 60_exceptions.md R210-R216). -/

namespace Sys2Proof

/-- A word that decodes is the word of the command it decodes to (30_encoding.md R75, R77). -/
theorem encode_of_decode {w : Word} {i : Instr} (h : decode w = .ok i) : encode i = w := by
  obtain ⟨r, hrow, hmask, rfl⟩ := decode_inv h
  have hfields : (r.build (fieldsOf w)).fields = fieldsOf w :=
    (row_fields hrow (fieldsOf w) (by rw [layout_fieldsOf]; exact hmask)).2
  rw [encode, hfields, (rowOf_some hrow _).1, layout_fieldsOf]

end Sys2Proof

namespace Sys2Proof.Machine

/-! ### A write of a control register -/

/-- A 32-bit write is acknowledged after the write of the register at its offset (20_memory.md R52, R53). -/
theorem step_write {s : State} {o : BitVec 8} {w : Word} {rest : List Input} {r : WindowRegister}
    (h : s.inputs = .access ⟨.word, o, .write w⟩ :: rest) (hr : windowRegister o = some r) :
    step s = withAnswer .ack (writeRegister r w { s with inputs := rest }) := by
  rw [step_access h, serve_write (target_word.trans hr) rfl]

theorem State.cause_writeStatus (s : State) (w : Word) :
    (s.writeStatus w).cause = if w.getLsbD 0 then 0#8 else s.cause := by
  simp only [State.writeStatus, State.clearWhereOne_cause]
  exact apply_ite State.cause _ _ _

theorem State.faultcmd_writeStatus (s : State) (w : Word) :
    (s.writeStatus w).faultcmd = if w.getLsbD 0 then 0#32 else s.faultcmd := by
  simp only [State.writeStatus, State.clearWhereOne_faultcmd]
  exact apply_ite State.faultcmd _ _ _

/-- CTRL reads back bit 0 of the word written to it (10_state.md R29). -/
theorem State.ctrlWord_writeCtrl (s : State) (w : Word) : (s.writeCtrl w).ctrlWord = w &&& 1#32 := by
  rw [State.ctrlWord, State.writeCtrl_irqen, BitVec.and_one_eq_setWidth_ofBool_getLsbD]
  cases w.getLsbD 0 <;> rfl

/-- Settles O11, by the rules of a STATUS write for each field of the state. -/
theorem statusWriteClearsTheBitsWrittenOne : Obligations.StatusWriteClearsTheBitsWrittenOne := by
  intro s w rest h
  refine ⟨_, step_write h windowRegister_control.2.1, State.status_writeStatus _ w, ?_, ?_,
    State.reg_writeStatus _ w, State.writeStatus_irqen _ w, State.writeStatus_resets _ w,
    State.writeStatus_inputs _ w, rfl⟩
  · intro h0
    rw [State.cause_writeStatus, State.faultcmd_writeStatus, h0]
    exact ⟨rfl, rfl⟩
  · intro h0
    rw [State.cause_writeStatus, State.faultcmd_writeStatus, h0]
    exact ⟨rfl, rfl⟩

/-- Settles O12, by the register at each of the three offsets. -/
theorem readOnlyAndControlWrites : Obligations.ReadOnlyAndControlWrites := by
  intro s w rest
  obtain ⟨_, _, hcause, hfaultcmd, hctrl⟩ := windowRegister_control
  refine ⟨?_, fun h => ?_⟩
  · rintro o (rfl | rfl) h
    · exact step_write h hcause
    · exact step_write h hfaultcmd
  · exact ⟨_, step_write h hctrl, rfl, State.ctrlWord_writeCtrl s w⟩

/-! ### Reserved bits -/

/-- The defined bits of STATUS are 0 to 5 and 8 to 10 (10_state.md R25). -/
theorem getLsbD_statusDefined_reserved {k : Nat} (h : k = 6 ∨ k = 7 ∨ 11 ≤ k) : statusDefined.getLsbD k = false := by
  have inWord : ∀ j < 32, j = 6 ∨ j = 7 ∨ 11 ≤ j → statusDefined.getLsbD j = false := by decide
  by_cases hk : k < 32
  · exact inWord k hk h
  · exact BitVec.getLsbD_of_ge _ _ (by omega)

/-- Settles O13, by the mask of STATUS and the widths of CAUSE and CTRL. -/
theorem reservedBitsReadZero : Obligations.ReservedBitsReadZero := by
  refine fun s k => ⟨fun h => ?_, fun h => ?_, fun h => ?_⟩
  · rw [State.statusWord, BitVec.getLsbD_and, getLsbD_statusDefined_reserved h, Bool.and_false]
  · rw [State.causeWord, BitVec.getLsbD_setWidth, BitVec.getLsbD_of_ge _ _ h, Bool.and_false]
  · have hk : k ≠ 0 := by omega
    cases hi : s.irqen <;> simp [State.ctrlWord, hi, BitVec.getLsbD_one, hk]

/-! ### The invariant -/

/-- A state whose STATUS, CAUSE and FAULTCMD are 0 is legal. -/
theorem legal_of_cleared {s : State} (hstatus : s.status = 0#32) (hcause : s.cause = 0#8)
    (hfaultcmd : s.faultcmd = 0#32) : LegalState s := by
  simp [LegalState, compareFlagsLegal, latchLegal, State.flag, hstatus, hcause, hfaultcmd]

/-- Settles O20: reset clears STATUS, CAUSE and FAULTCMD. -/
theorem resetMeetsTheInvariant : Obligations.ResetMeetsTheInvariant :=
  legal_of_cleared rfl rfl rfl

/-- The table of 60_exceptions.md R210, read for the word in FAULTCMD. -/
theorem canRaise_of_decode {w : Word} {i : Instr} {c : Cause} (hd : decode w = .ok i)
    (hc : (c = .overflow ∧ mayOverflow i = true) ∨ (c = .divideByZero ∧ mayDivideByZero i = true)) :
    canRaise w c = true := by
  rcases hc with ⟨rfl, hm⟩ | ⟨rfl, hm⟩ <;> simp [canRaise, hd, hm]

/-- A command that a word decodes to keeps the state legal, by each of its four effects. -/
theorem legal_effect {w : Word} {i : Instr} {s t : State} (h : LegalState s) (hd : decode w = .ok i)
    (he : Effect i s t) : LegalState t := by
  cases he with
  | faulted c ht hc =>
    rw [ht, encode_of_decode hd]
    exact legal_takeFault h (canRaise_of_decode hd hc)
  | wrote d v outside _ ht _ =>
    have hset : LegalState (s.setReg d v) := legal_of_same h rfl rfl rfl
    rw [ht]
    exact legal_raise hset outside (.inl rfl)
  | compared _ _ o ht =>
    rw [ht]
    exact legal_compare h o
  | idle _ ht =>
    rw [ht]
    exact h

/-- A write to CMD keeps the state legal (60_exceptions.md R211, R212, R214). -/
theorem legal_writeCommand {w : Word} {s t : State} (h : LegalState s) (ht : writeCommand w s = .next t) :
    LegalState t := by
  cases command_effect ht with
  | discarded _ hd =>
    rw [hd]
    exact legal_raise h true (.inr rfl)
  | illegal _ e he hi =>
    rw [hi]
    exact legal_takeFault h (by simp [canRaise, he])
  | ran _ i hd he => exact legal_effect h hd he

/-- Every register write keeps the state legal. -/
theorem legal_writeRegister {r : WindowRegister} {w : Word} {s t : State} (h : LegalState s)
    (ht : writeRegister r w s = .next t) : LegalState t := by
  cases r with
  | cmd => exact legal_writeCommand h ht
  | status => cases ht; exact legal_writeStatus h w
  | data i => cases ht; exact legal_of_same h rfl rfl rfl
  | cause => cases ht; exact h
  | faultcmd => cases ht; exact h
  | ctrl => cases ht; exact legal_of_same h rfl rfl rfl

/-- Settles O21, by the four things a step can do. -/
theorem everyStepKeepsTheInvariant : Obligations.EveryStepKeepsTheInvariant := by
  intro s t h hstep
  cases step_effect hstep with
  | idle _ ht => rw [ht]; exact h
  | reset rest _ ht => rw [ht]; exact legal_of_cleared rfl rfl rfl
  | read a rest w _ _ ht => rw [ht]; exact legal_of_same h rfl rfl rfl
  | write a rest r w u _ _ _ hu ht =>
    have hrest : LegalState { s with inputs := rest } := legal_of_same h rfl rfl rfl
    rw [ht]
    exact legal_of_same (legal_writeRegister hrest hu) rfl rfl rfl

/-! ### The comparison flags -/

theorem isCmp_iff (i : Instr) : isCmp i = true ↔ ∃ rs1 rs2, i = .cmp rs1 rs2 := by
  cases i <;> simp [isCmp]

/-- No command but CMP changes a comparison flag, whether or not it faults (10_state.md R24). -/
theorem compareFlag_effect {i : Instr} {s t : State} (he : Effect i s t) (hi : isCmp i = false) {b : StatusBit}
    (hb : b = .lt ∨ b = .eq ∨ b = .gt) : t.flag b = s.flag b := by
  cases he with
  | faulted c ht _ =>
    rw [ht, State.flag_takeFault]
    cases c <;> rcases hb with rfl | rfl | rfl <;> rfl
  | wrote d v outside _ ht _ =>
    rw [ht, State.flag_raiseFlag]
    rcases hb with rfl | rfl | rfl <;> rfl
  | compared hc _ _ _ => simp [hi] at hc
  | idle _ ht => rw [ht]

/-- A write to CMD changes a comparison flag only where it runs a CMP. -/
theorem compareFlag_writeCommand {w : Word} {s t : State} (ht : writeCommand w s = .next t) {b : StatusBit}
    (hb : b = .lt ∨ b = .eq ∨ b = .gt) (hne : t.flag b ≠ s.flag b) :
    s.flag .fault = false ∧ ∃ rs1 rs2, decode w = .ok (.cmp rs1 rs2) := by
  cases command_effect ht with
  | discarded _ hd =>
    refine absurd ?_ hne
    rw [hd, State.flag_setFlag]
    rcases hb with rfl | rfl | rfl <;> rfl
  | illegal _ _ _ hi =>
    refine absurd ?_ hne
    rw [hi, State.flag_takeFault]
    rcases hb with rfl | rfl | rfl <;> rfl
  | ran hf i hd he =>
    have hi : isCmp i = true := by
      by_contra hi
      exact hne (compareFlag_effect he (by simpa using hi) hb)
    obtain ⟨rs1, rs2, rfl⟩ := (isCmp_iff i).1 hi
    exact ⟨hf, rs1, rs2, hd⟩

/-- A STATUS write does not reach the comparison flags (10_state.md R26). -/
theorem compareFlag_writeStatus (s : State) (w : Word) {b : StatusBit} (hb : b = .lt ∨ b = .eq ∨ b = .gt) :
    (s.writeStatus w).flag b = s.flag b := by
  rw [State.flag, State.getLsbD_writeStatus]
  rcases hb with rfl | rfl | rfl <;> exact Bool.and_true _

/-- Of all register writes only a CMD write that runs a CMP changes a comparison flag. -/
theorem compareFlag_writeRegister {r : WindowRegister} {w : Word} {s t : State} (ht : writeRegister r w s = .next t)
    {b : StatusBit} (hb : b = .lt ∨ b = .eq ∨ b = .gt) (hne : t.flag b ≠ s.flag b) :
    r = .cmd ∧ s.flag .fault = false ∧ ∃ rs1 rs2, decode w = .ok (.cmp rs1 rs2) := by
  cases r with
  | cmd => exact ⟨rfl, compareFlag_writeCommand ht hb hne⟩
  | status => cases ht; exact absurd (compareFlag_writeStatus s w hb) hne
  | data i => cases ht; exact absurd rfl hne
  | cause => cases ht; exact absurd rfl hne
  | faultcmd => cases ht; exact absurd rfl hne
  | ctrl => cases ht; exact absurd rfl hne

/-- Settles O24, by the four things a step can do. -/
theorem onlyCmpChangesTheComparisonFlags : Obligations.OnlyCmpChangesTheComparisonFlags := by
  intro s t hstep b hb hne
  cases step_effect hstep with
  | idle _ ht => rw [ht] at hne; exact absurd rfl hne
  | reset rest hin _ => rw [hin]; exact .inl rfl
  | read a rest w _ _ ht => rw [ht] at hne; exact absurd rfl hne
  | write a rest r w u hin hr ho hu ht =>
    rw [ht] at hne
    obtain ⟨rfl, hf, rs1, rs2, hd⟩ := compareFlag_writeRegister hu hb hne
    rw [hin]
    exact .inr ⟨a, w, rs1, rs2, rfl, ho, target_offset hr, hf, hd⟩

end Sys2Proof.Machine

/-! SUPPORT. The statements about the host register window and the port (20_memory.md R50-R60). -/

namespace Sys2Proof.Machine

/-! ### Bad accesses (20_memory.md R51, R55) -/

/-- The port's test of an access, as the statements say it. -/
theorem isBadInput_access_iff (a : Access) :
    isBadInput (.access a) = true ↔ a.width ≠ .word ∨ a.offset.toNat % 4 ≠ 0 ∨ 0x54 ≤ a.offset.toNat := by
  simp [isBadInput, or_assoc]

theorem answerTo_of_no_target {a : Access} (s : State) (h : a.target = none) : s.answerTo a = .busError := by
  simp only [State.answerTo, h]

theorem perform_of_no_target {a : Access} (s : State) (h : a.target = none) : perform a s = .next s := by
  simp only [perform, h]

/-- An access that reaches a register is served with a next state, whatever it does there. -/
theorem serve_next {a : Access} {r : WindowRegister} (s : State) (h : a.target = some r) :
    ∃ t, serve a s = .next t := by
  cases ho : a.op with
  | read => exact ⟨_, serve_read h ho⟩
  | write w =>
    obtain ⟨t, ht⟩ := writeRegister_next r w s
    exact ⟨_, (serve_write h ho).trans (congrArg (withAnswer .ack) ht)⟩

/-- Settles O15: no register is the target of a bad access. -/
theorem badAccessIsABusError : Obligations.BadAccessIsABusError := by
  intro s a rest hin hbad
  have htarget : a.target = none := (target_none_iff a).2 ((isBadInput_access_iff a).2 hbad)
  exact ⟨answerTo_of_no_target s htarget, perform_of_no_target s htarget,
    (step_access hin).trans (serve_bad htarget)⟩

/-- Settles O16, by what the host does next: nothing, a reset, or an access that reaches a register. -/
theorem stepStopsOnlyOnABadAccess : Obligations.StepStopsOnlyOnABadAccess := by
  refine ⟨fun s hgood => ?_, fun s => step_idle⟩
  cases hin : s.inputs with
  | nil => exact ⟨_, step_idle hin⟩
  | cons x rest =>
    cases x with
    | reset => exact ⟨_, step_reset hin⟩
    | access a =>
      have hok : isBadInput (.access a) = false := hgood _ (by rw [hin, List.head?_cons])
      cases htarget : a.target with
      | none => rw [(target_none_iff a).1 htarget] at hok; cases hok
      | some r => rw [step_access hin]; exact serve_next _ htarget

/-! ### Command writes (20_memory.md R53, 60_exceptions.md R211) -/

theorem writeCommand_of_decode {w : Word} {i : Instr} {s : State} (hf : s.flag .fault = false)
    (hd : decode w = .ok i) : writeCommand w s = exec i s := by
  simp [writeCommand, execute, hf, hd]

/-- Where the host writes a command word next and its write answers `t`, the step is `t` and then the acknowledge. -/
theorem step_command {s t : State} {w : Word} {rest : List Input}
    (h : s.inputs = .access ⟨.word, 0x40#8, .write w⟩ :: rest)
    (ht : writeCommand w { s with inputs := rest } = .next t) : step s = .next { t with answer := some .ack } :=
  (step_write h windowRegister_control.1).trans (congrArg (withAnswer .ack) ht)

/-- Settles O7, by the two outcomes of the decoder. -/
theorem stepRunsTheDecodedCommand : Obligations.StepRunsTheDecodedCommand := by
  intro s w rest h hf
  have hf' : State.flag { s with inputs := rest } .fault = false := hf
  refine ⟨fun i hd => ?_, fun e hd => ?_⟩
  · obtain ⟨t, ht, _⟩ := exec_effect i { s with inputs := rest }
    exact ⟨t, ht, step_command h ((writeCommand_of_decode hf' hd).trans ht)⟩
  · obtain ⟨t, ht, hlatched⟩ := latches_of_error hf' hd
    exact ⟨t, ⟨t, rfl, hlatched⟩, step_command h ht⟩

/-! ### Reads (20_memory.md R52, R54) -/

theorem State.toNat_causeWord (s : State) : s.causeWord.toNat = s.cause.toNat :=
  BitVec.toNat_setWidth_of_le (by decide)

theorem State.toNat_ctrlWord (s : State) : s.ctrlWord.toNat = if s.irqen then 1 else 0 :=
  apply_ite BitVec.toNat _ _ _

/-- What a register reads as does not depend on what stands at the port. -/
theorem State.readRegister_inputs (s : State) (r : WindowRegister) (rest : List Input) :
    { s with inputs := rest }.readRegister r = s.readRegister r := by
  cases r <;> rfl

/-- A 32-bit read answers the word of the register at its offset and leaves the rest of the state as it was. -/
theorem step_read {s : State} {o : BitVec 8} {rest : List Input} {r : WindowRegister}
    (h : s.inputs = .access ⟨.word, o, .read⟩ :: rest) (hr : windowRegister o = some r) :
    step s = .next { s with inputs := rest, answer := some (.data (s.readRegister r)) } := by
  rw [step_access h, serve_read (target_word.trans hr) rfl, State.readRegister_inputs]

/-- Settles O9, by the register at each offset of the map and the word it reads as. -/
theorem readReturnsTheRegisterAndChangesNothing : Obligations.ReadReturnsTheRegisterAndChangesNothing := by
  intro s o rest h w hw
  obtain ⟨hcmd, hstatus, hcause, hfaultcmd, hctrl⟩ := windowRegister_control
  obtain ⟨r, hr, rfl⟩ : ∃ r, windowRegister o = some r ∧ s.readRegister r = w := by
    rcases hw with ⟨i, ho, rfl⟩ | ⟨rfl, rfl⟩ | ⟨rfl, rfl⟩ | ⟨rfl, hw⟩ | ⟨rfl, rfl⟩ | ⟨rfl, hw⟩
    · exact ⟨.data i, windowRegister_of_toNat ho, rfl⟩
    · exact ⟨.cmd, hcmd, rfl⟩
    · exact ⟨.status, hstatus, rfl⟩
    · exact ⟨.cause, hcause, BitVec.eq_of_toNat_eq (s.toNat_causeWord.trans hw.symm)⟩
    · exact ⟨.faultcmd, hfaultcmd, rfl⟩
    · exact ⟨.ctrl, hctrl, BitVec.eq_of_toNat_eq (s.toNat_ctrlWord.trans hw.symm)⟩
  exact step_read h hr

/-! ### Writes of data registers (20_memory.md R52) -/

theorem State.reg_setReg_ne (s : State) {i j : Reg} (w : Word) (h : j ≠ i) : (s.setReg i w).reg j = s.reg j :=
  (State.reg_setReg s i j w).trans (if_neg h)

/-- Settles O10, by the frame of a register update. -/
theorem dataRegisterWriteChangesOnlyThatRegister : Obligations.DataRegisterWriteChangesOnlyThatRegister := by
  intro s i w rest h
  exact ⟨_, step_write h (windowRegister_data i), State.reg_setReg_same _ i w, fun _ hj => State.reg_setReg_ne _ w hj,
    rfl, rfl, rfl, rfl, rfl, rfl, rfl⟩

/-! ### The address of the window (20_memory.md R50) -/

theorem windowOffset_fxuBase_add (o : BitVec 8) : windowOffset (Config.fxuBase + o.toNat) = some o := by
  have hin : Config.fxuBase ≤ Config.fxuBase + o.toNat ∧ Config.fxuBase + o.toNat < Config.fxuBase + 0x100 :=
    ⟨Nat.le_add_right _ _, Nat.add_lt_add_left o.isLt _⟩
  rw [windowOffset, if_pos hin, Nat.add_sub_cancel_left, BitVec.ofNat_toNat, BitVec.setWidth_eq]

/-- Settles O17, by the bounds of the window. -/
theorem windowIsTheBlockAtFxuBase : Obligations.WindowIsTheBlockAtFxuBase := by
  refine ⟨Nat.mul_mod_right _ _, windowOffset_fxuBase_add, fun a hout => ?_⟩
  exact if_neg (by omega)

/-! ### Byte lanes (20_memory.md R56) -/

theorem getLsbD_byteLane (w : Word) (j : Fin 4) {k : Nat} (hk : k < 8) :
    (byteLane w j).getLsbD k = w.getLsbD (8 * j.val + k) := by
  rw [byteLane, BitVec.getLsbD_extractLsb', decide_eq_true hk, Bool.true_and]

/-- A lane and the bits below it are the low bits that end with the lane. -/
theorem byteLane_append_low (w : Word) (j : Fin 4) :
    byteLane w j ++ w.extractLsb' 0 (8 * j.val) = w.extractLsb' 0 (8 + 8 * j.val) :=
  BitVec.extractLsb'_append_extractLsb'_eq_extractLsb' (Nat.zero_add _).symm

theorem ofLanes_byteLane (w : Word) :
    ofLanes (byteLane w 0) (byteLane w 1) (byteLane w 2) (byteLane w 3) = w := by
  have h1 : byteLane w 1 ++ byteLane w 0 = w.extractLsb' 0 16 := byteLane_append_low w 1
  have h2 : byteLane w 2 ++ w.extractLsb' 0 16 = w.extractLsb' 0 24 := byteLane_append_low w 2
  have h3 : byteLane w 3 ++ w.extractLsb' 0 24 = w.extractLsb' 0 32 := byteLane_append_low w 3
  rw [ofLanes, h1, h2, h3, BitVec.extractLsb'_eq_self]

/-- Settles O18, by the bits of one lane and the joining of all four. -/
theorem byteLanesAreLittleEndian : Obligations.ByteLanesAreLittleEndian :=
  ⟨fun w j _ hk => getLsbD_byteLane w j hk, ofLanes_byteLane⟩

end Sys2Proof.Machine

/-! SUPPORT. The statements about the command word (30_encoding.md R71-R78). -/

namespace Sys2Proof

/-! ### The three outcomes of the decoder (30_encoding.md R75-R77) -/

theorem decode_of_row {w : Word} {r : Row} (hrow : rowOf (opOf w) = some r)
    (hmask : w &&& r.format.mask = matchOf (opOf w)) : decode w = .ok (r.build (fieldsOf w)) := by
  simp only [decode, hrow, hmask, ne_eq, not_true_eq_false, if_false]

theorem decode_of_mask_ne {w : Word} {r : Row} (hrow : rowOf (opOf w) = some r)
    (hmask : w &&& r.format.mask ≠ matchOf (opOf w)) : decode w = .error (.reservedFieldNotZero (opOf w)) := by
  simp only [decode, hrow, ne_eq, hmask, not_false_eq_true, if_true]

theorem decode_of_no_row {w : Word} (hrow : rowOf (opOf w) = none) :
    decode w = .error (.reservedOpcode (opOf w)) := by
  simp only [decode, hrow]

/-! ### Decoder and encoder -/

theorem opOf_encode (i : Instr) : opOf (encode i) = i.opcode := opOf_layout _ _

theorem fieldsOf_encode (i : Instr) : fieldsOf (encode i) = i.fields := fieldsOf_layout _ _

/-- Settles O2: the word of a command holds its OP and fields, and the row of its OP reads them back. -/
theorem decodeGivesBackTheEncodedCommand : Obligations.DecodeGivesBackTheEncodedCommand := by
  intro i hi
  obtain ⟨r, hrow, hformat, hbuild⟩ := rowOf_opcode i
  have hmask : encode i &&& r.format.mask = matchOf (opOf (encode i)) := by
    rw [hformat, opOf_encode]
    exact encode_and_mask i hi
  have hdecode := decode_of_row (by rwa [opOf_encode]) hmask
  rwa [fieldsOf_encode, hbuild hi] at hdecode

theorem wellFormed_of_decode {w : Word} {i : Instr} (h : decode w = .ok i) : i.wellFormed = true := by
  obtain ⟨r, hrow, hmask, rfl⟩ := decode_inv h
  exact (row_fields hrow (fieldsOf w) (by rwa [layout_fieldsOf])).1

/-- Settles O3: the mask test leaves no bit of the word to chance. -/
theorem everyLegalWordIsTheEncodingOfItsCommand : Obligations.EveryLegalWordIsTheEncodingOfItsCommand :=
  fun _ _ h => ⟨wellFormed_of_decode h, encode_of_decode h⟩

/-! ### The mask tests (30_encoding.md R74) -/

theorem mask_of_decode {w : Word} {i : Instr} (h : decode w = .ok i) : w &&& i.format.mask = matchOf i.opcode := by
  rw [← encode_of_decode h]
  exact encode_and_mask i (wellFormed_of_decode h)

/-- A word that passes the mask test of a row decodes to a command of that row. -/
theorem decode_of_mask {w : Word} {j : Instr} (h : w &&& j.format.mask = matchOf j.opcode) :
    ∃ i, decode w = .ok i ∧ i.opcode = j.opcode ∧ i.format = j.format := by
  have hop : opOf w = j.opcode := opOf_eq_of_mask h
  obtain ⟨r, hrow, hformat, _⟩ := rowOf_opcode j
  obtain ⟨hopcode, hformat'⟩ := rowOf_some hrow (fieldsOf w)
  exact ⟨_, decode_of_row (by rwa [hop]) (by rwa [hformat, hop]), hopcode, hformat'.trans hformat⟩

/-- Settles O4: every mask covers OP, so the test fixes the row. -/
theorem aWordSpellsAtMostOneRow : Obligations.AWordSpellsAtMostOneRow :=
  ⟨fun _ _ => mask_of_decode, fun _ _ => decode_of_mask,
    fun _ _ _ hi hj => (opOf_eq_of_mask hi).symm.trans (opOf_eq_of_mask hj)⟩

/-! ### Illegal words (30_encoding.md R75, R76) -/

/-- The format that the claims give the OP of a word is the format of its row. -/
theorem formatOfOp_of_word (w : Word) : Machine.formatOfOp (w.toNat % 2 ^ 8) = (rowOf (opOf w)).map Row.format := by
  rw [← opOf_toNat, formatOfOp_rowOf]

theorem decode_of_unusedField {w : Word} {m : Format} (hm : Machine.formatOfOp (w.toNat % 2 ^ 8) = some m)
    (hunused : Machine.unusedFieldsZero w m = false) : decode w = .error (.reservedFieldNotZero (opOf w)) := by
  rw [formatOfOp_of_word, Option.map_eq_some_iff] at hm
  obtain ⟨r, hrow, rfl⟩ := hm
  refine decode_of_mask_ne hrow fun hmask => ?_
  rw [(Machine.unusedFieldsZero_iff w _).2 hmask] at hunused
  cases hunused

/-- One line of the opcode map gives no format where its OP test fails and no later line gives one. -/
theorem ite_some_eq_none_iff {α : Type} {p : Prop} [Decidable p] {a : α} {rest : Option α} :
    (if p then some a else rest) = none ↔ ¬p ∧ rest = none := by
  by_cases h : p <;> simp [h]

/-- The map of R74 has no format exactly for the OP values R76 lists. -/
theorem formatOfOp_eq_none_iff {op : Nat} (hop : op < 256) :
    Machine.formatOfOp op = none ↔ Machine.isReservedOp op := by
  simp only [Machine.formatOfOp, Machine.isReservedOp, ite_some_eq_none_iff, and_true]
  omega

theorem decode_of_reservedOp {w : Word} (h : Machine.isReservedOp (w.toNat % 2 ^ 8)) :
    decode w = .error (.reservedOpcode (opOf w)) := by
  have hlt : w.toNat % 2 ^ 8 < 256 := Nat.mod_lt _ (by decide)
  have hnone : Machine.formatOfOp (w.toNat % 2 ^ 8) = none := (formatOfOp_eq_none_iff hlt).2 h
  rw [formatOfOp_of_word, Option.map_eq_none_iff] at hnone
  exact decode_of_no_row hnone

theorem decode_eq_nop_iff (w : Word) : decode w = .ok .nop ↔ w = 0#32 := by
  have hword : encode .nop = 0#32 := by decide
  constructor
  · intro h
    rw [← encode_of_decode h, hword]
  · rintro rfl
    rw [← hword]
    exact decodeGivesBackTheEncodedCommand .nop rfl

/-- Settles O5: the word fails the mask test of its row. -/
theorem unusedFieldSetIsIllegal : Obligations.UnusedFieldSetIsIllegal :=
  ⟨fun _ _ _ hf hm hunused => Machine.latches_of_error hf (decode_of_unusedField hm hunused), decode_eq_nop_iff⟩

/-- Settles O6: the word has no row. -/
theorem reservedOpIsIllegal : Obligations.ReservedOpIsIllegal :=
  ⟨fun _ => formatOfOp_eq_none_iff, fun _ _ hf hop => Machine.latches_of_error hf (decode_of_reservedOp hop),
    decode_eq_nop_iff⟩

/-! ### Words written out from the spec (30_encoding.md R78) -/

/-- Settles O1, by running the decoder on each word. -/
theorem specWordsDecodeToTheirCommands : Obligations.SpecWordsDecodeToTheirCommands := by
  unfold Obligations.SpecWordsDecodeToTheirCommands
  decide

end Sys2Proof

/-! SUPPORT. The statements about the ALU commands (40_alu.md R100-R125). -/

namespace Sys2Proof

/-- A command's word by the values of its fields and its OP (30_encoding.md R71). -/
theorem encode_eq_spelled (i : Instr) : encode i = Machine.spelled i.opcode.toNat i.fields.rd i.fields.rs1 i.fields.rs2
    i.fields.rs3 i.fields.imm8.toNat :=
  Machine.layout_eq_spelled i.fields i.opcode

end Sys2Proof

namespace Sys2Proof.Machine

/-! ### Checked commands: the value or the fault -/

/-- The commit of a checked function: the value where it passes its check, else the fault (60_exceptions.md R211, R212). -/
theorem State.commit_checked {s : State} {w w' : Word} {rd : Reg} {r : Fx} {v : Int} {c : Cause} {passes : Prop}
    [Decidable passes] (hw : w = w') (hr : r = if passes then .ok v else .error c) :
    (passes → Puts (s.commit w rd r) s rd (word v)) ∧ (¬passes → Latches (s.commit w rd r) s c w') :=
  ⟨fun h => State.commit_puts (hr.trans (if_pos h)), fun h => State.commit_latches (hr.trans (if_neg h)) hw⟩

/-- Settles O28: the sign check of R100 fails exactly where the sum does not fit. -/
theorem addIsExactOrOverflows : Obligations.AddIsExactOrOverflows := fun rd rs1 rs2 s =>
  have hword := encode_eq_spelled (.add rd rs1 rs2)
  ⟨hword, State.commit_checked hword (fxADD_eq (s.fits32_operand rs1) (s.fits32_operand rs2))⟩

/-- Settles O29: the sign check of R102 fails exactly where the difference does not fit. -/
theorem subIsExactOrOverflows : Obligations.SubIsExactOrOverflows := fun rd rs1 rs2 s =>
  have hword := encode_eq_spelled (.sub rd rs1 rs2)
  ⟨hword, State.commit_checked hword (fxSUB_eq (s.fits32_operand rs1) (s.fits32_operand rs2))⟩

/-- Settles O30: rounding the magnitude half up and restoring the sign rounds to nearest, halves away from zero. -/
theorem mulIsNearestOrOverflows : Obligations.MulIsNearestOrOverflows := fun rd rs1 rs2 s =>
  have hword := encode_eq_spelled (.mul rd rs1 rs2)
  ⟨hword, _, isNearestAway_magnitude _, State.commit_checked hword (fxMUL_eq (s.operand rs1) (s.operand rs2))⟩

/-- INC's sum fits up to the bound of R115. -/
theorem fits32_add_one_iff {a : Int} (ha : fits32 a) : fits32 (a + one) ↔ a ≤ 2 ^ 31 - 1 - 65536 := by
  simp only [fits32, one] at *
  omega

/-- DEC's difference fits down to the bound of R116. -/
theorem fits32_sub_one_iff {a : Int} (ha : fits32 a) : fits32 (a - one) ↔ -2 ^ 31 + 65536 ≤ a := by
  simp only [fits32, one] at *
  omega

/-- Settles O35: INC and DEC are the checked sum and difference with ONE (R114). -/
theorem incAndDecMoveByOneOrOverflow : Obligations.IncAndDecMoveByOneOrOverflow := by
  intro rd rs1 s
  have hinc := encode_eq_spelled (.inc rd rs1)
  have hdec := encode_eq_spelled (.dec rd rs1)
  have ha := s.fits32_operand rs1
  have hone : fits32 one := by decide
  obtain ⟨incPuts, incLatches⟩ := State.commit_checked (s := s) (rd := rd) hinc (fxADD_eq ha hone)
  obtain ⟨decPuts, decLatches⟩ := State.commit_checked (s := s) (rd := rd) hdec (fxSUB_eq ha hone)
  rw [fits32_add_one_iff ha] at incPuts incLatches
  rw [fits32_sub_one_iff ha] at decPuts decLatches
  exact ⟨hinc, hdec, incPuts, fun h => incLatches h.not_ge, decPuts, fun h => decLatches h.not_ge⟩

/-! ### Division (R106-R111) -/

theorem fxDIV_zero {a b : Int} (hb : b = 0) : fxDIV a b = .error .divideByZero := by
  rw [fxDIV_eq, if_pos hb]

theorem fxDIV_nonzero {a b : Int} (hb : b ≠ 0) : fxDIV a b =
    if fits32 (tdiv (a * 2 ^ 16) b) then .ok (tdiv (a * 2 ^ 16) b) else .error .overflow := by
  rw [fxDIV_eq, if_neg hb]
  rfl

/-- Settles O31: the divide-by-zero test comes first, then the range check of the truncated quotient. -/
theorem divTruncatesOrFaults : Obligations.DivTruncatesOrFaults := fun rd rs1 rs2 _ =>
  have hword := encode_eq_spelled (.div rd rs1 rs2)
  ⟨hword, fun hb => State.commit_latches (fxDIV_zero hb) hword, fun hb =>
    ⟨_, _, isTruncatedDivision_tdiv _ _ hb, State.commit_checked hword (fxDIV_nonzero hb)⟩⟩

theorem fxSDIV_zero {a b : Int} (hb : b = 0) : word (fxSDIV a b) =
    if 0 < a then 0x7FFFFFFF#32 else if a < 0 then 0x80000000#32 else 0#32 := by
  rw [fxSDIV, if_pos hb, word_saturated]

/-- Settles O32: the quotient of DIV clamped to the range, and the dividend's bound for a zero divisor. -/
theorem sdivSaturates : Obligations.SdivSaturates := by
  refine fun rd rs1 rs2 s => ⟨encode_eq_spelled _, fun hb => State.put_puts (fxSDIV_zero hb), fun hb => ?_⟩
  obtain ⟨inside, above, below⟩ := fxSDIV_cases (s.operand rs1) (s.operand rs2) hb
  obtain ⟨wordMax, wordMin, -⟩ := word_ends
  exact ⟨_, _, isTruncatedDivision_tdiv _ _ hb, fun h => State.put_puts (congrArg word (inside h)),
    fun h => State.put_puts ((congrArg word (above h)).trans wordMax),
    fun h => State.put_puts ((congrArg word (below h)).trans wordMin)⟩

theorem fxMOD_zero {a b : Int} (hb : b = 0) : fxMOD a b = .error .divideByZero := if_pos hb

theorem fxMOD_nonzero {a b : Int} (hb : b ≠ 0) : fxMOD a b = .ok (trem a b) := if_neg hb

/-- A remainder is smaller than its divisor, so it fits where the divisor does. -/
theorem IsTruncatedDivision.fits32_remainder {n d q r : Int} (h : IsTruncatedDivision n d q r) (hd : fits32 d) :
    fits32 r := by
  obtain ⟨-, hlt, -⟩ := h
  obtain ⟨hlow, hhigh⟩ := of_fits32 hd
  have hbound : |d| ≤ 2147483648 := abs_le.2 ⟨hlow, by omega⟩
  obtain ⟨rlow, rhigh⟩ := abs_lt.1 (hlt.trans_le hbound)
  exact fits32_of (by omega) (by omega)

/-- Settles O33: the remainder is that of the truncated division, which always fits. -/
theorem modIsTheTruncatedRemainder : Obligations.ModIsTheTruncatedRemainder := fun rd rs1 rs2 s =>
  have hword := encode_eq_spelled (.mod rd rs1 rs2)
  ⟨hword, fun hb => State.commit_latches (fxMOD_zero hb) hword, fun hb =>
    have hdiv := isTruncatedDivision_tdiv (s.operand rs1) (s.operand rs2) hb
    ⟨_, _, hdiv, hdiv.fits32_remainder (s.fits32_operand rs2), State.commit_puts (fxMOD_nonzero hb)⟩⟩

/-! ### Negation (R112) -/

theorem word_fxNEG (a : Int) : word (fxNEG a) = word (-a) := word_wrap32 _

/-- Settles O34: the negation fits but for MINVALUE, whose negation wraps to itself. -/
theorem negWrapsOnlyAtMinValue : Obligations.NegWrapsOnlyAtMinValue := by
  refine fun rd rs1 s => ⟨encode_eq_spelled _, _, State.put_puts (word_fxNEG _), fun hmin => ?_, fun hne => ?_⟩
  · rw [State.operand_def, hmin]
    decide
  · have hop : s.operand rs1 ≠ -2147483648 := fun h => hne ((s.reg_eq_iff rs1 _).2 h)
    have := s.operand_range rs1
    exact s32_word _ (fits32_of (by omega) (by omega))

/-! ### Shifts (R117) -/

theorem word_two_pow (n : Nat) : word (2 ^ n) = BitVec.twoPow 32 n := by
  apply BitVec.eq_of_toNat_eq
  rw [show (2 : Int) ^ n = (2 ^ n : Nat) by norm_cast, word, BitVec.ofInt_natCast, BitVec.toNat_ofNat,
    BitVec.toNat_twoPow]

/-- The left shift of R117 is the shift of the word. -/
theorem word_fxSHL (w : Word) (n : Nat) : word (fxSHL (s32 w) n) = w <<< n :=
  calc word (fxSHL (s32 w) n) = word (s32 w * 2 ^ n) := word_wrap32 _
    _ = word (s32 w) * word (2 ^ n) := BitVec.ofInt_mul _ _
    _ = w <<< n := by rw [word_s32, word_two_pow, BitVec.shiftLeft_eq_mul_twoPow]

/-- The right shift of R117 is the arithmetic shift of the word. -/
theorem word_fxSHR (w : Word) (n : Nat) : word (fxSHR (s32 w) n) = w.sshiftRight n := by
  have hsigned : fxSHR (s32 w) n = s32 (w.sshiftRight n) := by
    simp only [fxSHR, asr, s32, BitVec.toInt_sshiftRight, Int.shiftRight_eq_div_pow]
    norm_cast
  rw [hsigned, word_s32]

/-- The word of a shift command: its count is the whole of IMM8 (30_encoding.md R72, FRI). -/
theorem toNat_shiftCount {n : Nat} (h : n < 32) : (BitVec.ofNat 8 n).toNat = n := by
  rw [BitVec.toNat_ofNat, Nat.mod_eq_of_lt (by omega)]

/-- Settles O36: both shifts are shifts of the operand's word. -/
theorem shiftsMoveTheBits : Obligations.ShiftsMoveTheBits := by
  intro rd rs1 n s hn
  have hcount := toNat_shiftCount hn
  have hshli := encode_eq_spelled (.shli rd rs1 n)
  have hshri := encode_eq_spelled (.shri rd rs1 n)
  simp only [Instr.fields, hcount] at hshli hshri
  refine ⟨hshli, hshri, ⟨_, State.put_puts (word_fxSHL _ n), fun k hk => ?_⟩,
    ⟨_, State.put_puts (word_fxSHR _ n), fun k hk => ?_⟩⟩
  · rw [BitVec.getLsbD_shiftLeft]
    simp [hk, ← decide_not]
  · rw [BitVec.getLsbD_sshiftRight]
    simp [hk, Nat.add_comm n k, BitVec.msb_eq_getLsbD_last]

/-! ### Comparison (R121) -/

/-- The order CMP records is the one of the signed values. -/
theorem fxCMP_beq (a b : Int) : (fxCMP a b == .lt) = decide (a < b) ∧ (fxCMP a b == .eq) = decide (a = b) ∧
    (fxCMP a b == .gt) = decide (b < a) := by
  unfold fxCMP
  rcases lt_trichotomy a b with h | rfl | h
  · simp [h, h.ne, h.not_gt]
  · simp
  · simp [h, h.ne', h.not_gt]

/-- Settles O37: CMP writes the three flags and no other bit. -/
theorem cmpSetsExactlyOneFlag : Obligations.CmpSetsExactlyOneFlag := by
  intro rs1 rs2 s
  obtain ⟨hlt, heq, hgt⟩ := fxCMP_beq (s.operand rs1) (s.operand rs2)
  have hbit := s.getLsbD_setCompare (fxCMP (s.operand rs1) (s.operand rs2))
  refine ⟨encode_eq_spelled _, _, rfl, (hbit 8).trans hlt, (hbit 9).trans heq, (hbit 10).trans hgt, ?_,
    s.reg_setCompare _, rfl, rfl, rfl, rfl, rfl, rfl⟩
  intro k h8 h9 h10
  rw [hbit, if_neg h10, if_neg h9, if_neg h8]

/-! ### Moves (R123-R125) -/

/-- A ROM index is the whole of IMM8 (30_encoding.md R72, FK). -/
theorem toNat_romIndex (k : Fin 8) : (BitVec.ofNat 8 k.val).toNat = k := by
  rw [BitVec.toNat_ofNat, Nat.mod_eq_of_lt (by omega)]

/-- The ROM holds the constants of 10_state.md R30 in their order. -/
theorem rom_eq : ∀ k, rom k = (#v[0x00000000#32, 0x00010000#32, 0x80000000#32, 0x7FFFFFFF#32, 0x0003243F#32,
    0x0002B7E1#32, 0x0001921F#32, 0x0006487E#32] : Vector Word 8)[k] := by
  decide

/-- Settles O38: each word goes to the destination as it is. -/
theorem movLdcNopDoWhatTheySay : Obligations.MovLdcNopDoWhatTheySay := by
  intro rd rs1 k s
  have hldc := encode_eq_spelled (.ldc rd k)
  simp only [Instr.fields, toNat_romIndex] at hldc
  exact ⟨encode_eq_spelled _, hldc, rfl, State.put_puts rfl, rfl, State.put_puts (rom_eq k)⟩

end Sys2Proof.Machine

/-! SUPPORT. The statements about the conversion commands (41_convert.md R140-R144). -/

namespace Sys2Proof.Machine

/-! ### Integer conversions (R140, R141) -/

/-- The range check of R140 is the one of a 16-bit integer. -/
theorem fxITOX_eq (i : Int) :
    fxITOX i = if -32768 ≤ i ∧ i ≤ 32767 then .ok (i * 65536) else .error .overflow := by
  have hlow : asr (-2 ^ 31) 16 = -32768 := by decide
  have hhigh : asr (2 ^ 31 - 1) 16 = 32767 := by decide
  rw [fxITOX, hlow, hhigh]
  by_cases h : -32768 ≤ i ∧ i ≤ 32767
  · rw [if_pos h, if_neg (by omega)]
  · rw [if_neg h, if_pos (by omega)]

/-- XTOI rounds toward negative infinity (R141). -/
theorem fxXTOI_bounds (a : Int) : fxXTOI a * 65536 ≤ a ∧ a < (fxXTOI a + 1) * 65536 := by
  have hfloor : fxXTOI a = a / 65536 := by norm_num [fxXTOI, asr]
  omega

/-- Settles O39, by the range check of ITOX and the floor of XTOI. -/
theorem integerConversions : Obligations.IntegerConversions := by
  intro rd rs1 s
  have hitox := encode_eq_spelled (.itox rd rs1)
  obtain ⟨itoxPuts, itoxLatches⟩ := State.commit_checked (s := s) (rd := rd) hitox (fxITOX_eq (s.operand rs1))
  obtain ⟨hle, hlt⟩ := fxXTOI_bounds (s.operand rs1)
  exact ⟨hitox, encode_eq_spelled _, itoxPuts, fun h => itoxLatches (by omega), _, hle, hlt, State.put_puts rfl⟩

/-- Settles O40: ITOX puts `a * 65536`, whose integer part XTOI puts back (O39). -/
theorem integerRoundTrip : Obligations.IntegerRoundTrip := by
  intro rd rd' rs1 s hlow hhigh
  obtain ⟨-, -, itoxPuts, -⟩ := integerConversions rd rs1 s
  obtain ⟨t, ht, hscaled, -⟩ := itoxPuts ⟨hlow, hhigh⟩
  obtain ⟨-, -, -, -, i, hle, hlt, u, hu, hback, -⟩ := integerConversions rd' rd t
  have hoperand : t.operand rd = s.operand rs1 * 65536 := by
    rw [State.operand_def, hscaled, s32_word _ (fits32_of (by omega) (by omega))]
  have hi : i = s.operand rs1 := by omega
  exact ⟨t, u, ht, hu, by rw [hback, hi, State.operand_def, word_s32]⟩

/-! ### binary32 to Q16.16 (R142, R143) -/

/-- FTOX of a finite word is the range check of the exactly rounded value (R143). -/
theorem fxFTOX_finite {w : Word} (h : ¬isNaNOrInfinity w) : ∃ q : Int, IsRoundedAway (binary32Value w * 65536) q ∧
    fxFTOX w = if fits32 q then .ok q else .error .overflow := by
  obtain ⟨negative, m, e, hword, he, -, -, -, hvalue⟩ := ofWord_finite h
  have hrounded := roundMagnitude_spec m e he
  refine ⟨if negative then -roundMagnitude m e else roundMagnitude m e, ?_, ?_⟩
  · rw [hvalue]
    cases negative with
    | false => simpa using hrounded
    | true => simpa using isRoundedAway_neg hrounded
  · simp only [fxFTOX, hword]
    exact ite_not _ _ _

/-- Settles O41, by what a word stands for: a NaN or an infinity, or a value that is rounded. -/
theorem ftoxRoundsTheExactValue : Obligations.FtoxRoundsTheExactValue := by
  intro rd rs1 s
  have hword := encode_eq_spelled (.ftox rd rs1)
  refine ⟨hword, fun hnan => State.commit_latches (fxFTOX_nan hnan) hword, fun hfinite => ?_⟩
  obtain ⟨q, hrounded, hq⟩ := fxFTOX_finite hfinite
  exact ⟨q, hrounded, State.commit_checked hword hq⟩

/-! ### Q16.16 to binary32 (R144) -/

/-- The sign `(-1)^negative` of a binary32 value (R142). -/
def signFactor (negative : Bool) : ℚ := if negative then -1 else 1

theorem signFactor_xor (g n : Bool) : signFactor (xor g n) = signFactor g * signFactor n := by
  cases g <;> cases n <;> norm_num [signFactor]

/-- A common sign does not change a distance. -/
theorem abs_signFactor_mul_sub (g : Bool) (x y : ℚ) : |signFactor g * x - signFactor g * y| = |x - y| := by
  have hone : |signFactor g| = 1 := by cases g <;> simp [signFactor]
  rw [← mul_sub, abs_mul, hone, one_mul]

theorem signFactor_mul_self_mul (g : Bool) (x : ℚ) : signFactor g * (signFactor g * x) = x := by
  cases g <;> simp [signFactor]

/-- An integer is its sign times its magnitude. -/
theorem cast_eq_signFactor_mul_mag (a : Int) : (a : ℚ) = signFactor (decide (a < 0)) * mag a := by
  rw [mag, Nat.cast_natAbs, signFactor]
  by_cases h : a < 0
  · simp [h, abs_of_neg h]
  · simp [h, abs_of_nonneg (not_lt.1 h)]

theorem mag_pos {a : Int} (h0 : a ≠ 0) : 0 < mag a := Int.natAbs_pos.2 h0

/-- The magnitude of a signed 32-bit value has its leading bit at 31 or below. -/
theorem log2_mag_le {a : Int} (ha : fits32 a) (h0 : a ≠ 0) : (mag a).log2 ≤ 31 := by
  have hmag : mag a < 2 ^ 32 := by
    obtain ⟨hlow, hhigh⟩ := of_fits32 ha
    rw [mag]
    omega
  exact Nat.lt_succ_iff.1 ((Nat.log2_lt (mag_pos h0).ne').2 hmag)

/-- The word of XTOF is a sign bit and, below it, the exponent and the fraction (R144). -/
theorem toNat_xtofWord {a : Int} (h0 : a ≠ 0) (hfields : binary32Magnitude (mag a) < 2 ^ 31) :
    (xtofWord a).toNat = (if decide (a < 0) then 2 ^ 31 else 0) + binary32Magnitude (mag a) := by
  have hsmall : (BitVec.ofNat 32 (binary32Magnitude (mag a))).toNat = binary32Magnitude (mag a) := by
    rw [BitVec.toNat_ofNat, Nat.mod_eq_of_lt (by omega)]
  by_cases hneg : a < 0
  · have hsign := Nat.two_pow_add_eq_or_of_lt hfields 1
    simp [xtofWord, h0, hneg, hsmall, ← hsign]
  · simp [xtofWord, h0, hneg, hsmall]

/-- The word of XTOF is finite, its value is the rounded significand under the sign of the operand, and its lowest bit
is the one of that significand, a significand that carries into the exponent included (R144). -/
theorem xtofWord_finite {a : Int} (ha : fits32 a) (h0 : a ≠ 0) :
    ¬isNaNOrInfinity (xtofWord a) ∧
      binary32Value (xtofWord a) = signFactor (decide (a < 0)) *
        ((significand (mag a) : ℚ) * 2 ^ (((mag a).log2 + 111 : Nat) - 150 : Int)) ∧
      (xtofWord a).toNat % 2 = significand (mag a) % 2 := by
  obtain ⟨hlow, hhigh⟩ := significand_bounds (mag_pos h0)
  have hlog := log2_mag_le ha h0
  have hfields : binary32Magnitude (mag a) < 2 ^ 31 := by
    rw [binary32Magnitude_eq]
    omega
  have hword := toNat_xtofWord h0 hfields
  rw [binary32Magnitude_eq] at hword
  exact value_fields _ _ _ (Nat.le_add_left _ _) (by omega) hlow hhigh _ hword

/-- No finite word is nearer to `a / 65536` than the word of XTOF, and one as near but of another value only where the
significand of XTOF's is even (R144). -/
theorem xtofWord_nearestEven {a : Int} (ha : fits32 a) (h0 : a ≠ 0) {w : Word} (hw : ¬isNaNOrInfinity w) :
    |binary32Value (xtofWord a) - (a : ℚ) / 65536| ≤ |binary32Value w - (a : ℚ) / 65536| ∧
      (binary32Value w ≠ binary32Value (xtofWord a) →
        |binary32Value (xtofWord a) - (a : ℚ) / 65536| = |binary32Value w - (a : ℚ) / 65536| →
        (xtofWord a).toNat % 2 = 0) := by
  obtain ⟨-, hvalue, hparity⟩ := xtofWord_finite ha h0
  obtain ⟨g, s, e, -, he, -, hs, -, hother⟩ := ofWord_finite hw
  generalize hn : decide (a < 0) = n at hvalue
  obtain ⟨hnear, htie⟩ := nearest_core (mag_pos h0) (xor n g) s e hs he
  have htarget : (a : ℚ) / 65536 = signFactor n * (mag a / 65536) := by
    rw [cast_eq_signFactor_mul_mag a, hn, mul_div_assoc]
  have hother' : binary32Value w = signFactor n * (signFactor (xor n g) * (s * 2 ^ ((e : Int) - 150))) := by
    rw [signFactor_xor, mul_assoc, signFactor_mul_self_mul]
    exact hother
  rw [hparity, hvalue, hother', htarget, abs_signFactor_mul_sub, abs_signFactor_mul_sub]
  exact ⟨hnear, fun hne => htie fun heq => hne (congrArg _ heq)⟩

/-- The word of XTOF for 0 is +0.0, whose value is exact (R144). -/
theorem binary32Value_xtofWord_zero : ¬isNaNOrInfinity (xtofWord 0) ∧ binary32Value (xtofWord 0) = 0 := by
  norm_num [xtofWord, isNaNOrInfinity, binary32Value]

/-- Settles O42: 0 gives +0.0, and every other operand its rounded significand. -/
theorem xtofIsNearestEven : Obligations.XtofIsNearestEven := by
  intro rd rs1 s
  have ha := s.fits32_operand rs1
  refine ⟨encode_eq_spelled _, xtofWord (s.operand rs1), State.put_puts rfl, ?_⟩
  by_cases h0 : s.operand rs1 = 0
  · obtain ⟨hfinite, hvalue⟩ := binary32Value_xtofWord_zero
    rw [h0, hvalue, Int.cast_zero, zero_div, sub_zero, abs_zero]
    exact ⟨hfinite, fun _ => rfl, fun w _ => ⟨abs_nonneg _, fun _ _ => rfl⟩⟩
  · exact ⟨(xtofWord_finite ha h0).1, fun h => absurd h h0, fun w => xtofWord_nearestEven ha h0⟩

end Sys2Proof.Machine

/-! SUPPORT. The statements about the auxiliary commands (42_aux.md R150-R158). -/

namespace Sys2Proof.Machine

@[simp] theorem State.word_operand (s : State) (i : Reg) : word (s.operand i) = s.reg i := word_s32 _

/-! ### Absolute value and sign (R150, R151) -/

/-- The mask of R150 is the sign bit in every position. -/
theorem asr_31_of_fits32 {a : Int} (ha : fits32 a) : asr a 31 = if a < 0 then -1 else 0 := by
  obtain ⟨hlow, hhigh⟩ := of_fits32 ha
  have hdiv : asr a 31 = a / 2147483648 := by norm_num [asr]
  rw [hdiv]
  split <;> omega

/-- The exclusive or with a mask of ones is the complement, which is one less than the negation. -/
theorem word_sub_one_xor_neg_one (a : Int) : word (a - 1) ^^^ word (-1) = word (-a) := by
  have hones : word (-1) = BitVec.allOnes 32 := by decide
  have hneg : -word (a - 1) = word (-a + 1) := by rw [word, ← BitVec.ofInt_neg, neg_sub, sub_eq_neg_add, word]
  calc word (a - 1) ^^^ word (-1) = ~~~word (a - 1) := by rw [hones, BitVec.xor_allOnes]
    _ = word (-a + 1) - 1#32 := by rw [BitVec.not_eq_neg_add, hneg]
    _ = word (-a) + 1#32 - 1#32 := by rw [word, BitVec.ofInt_add]; rfl
    _ = word (-a) := BitVec.add_sub_cancel _ _

/-- The branchless absolute value of R150 is the word of the absolute value, that of MINVALUE included. -/
theorem absWord_eq {a : Int} (ha : fits32 a) : absWord a = word |a| := by
  simp only [absWord, asr_31_of_fits32 ha, word_wrap32]
  by_cases hneg : a < 0
  · rw [if_pos hneg, abs_of_neg hneg]
    exact word_sub_one_xor_neg_one a
  · have hzero : word 0 = 0#32 := rfl
    rw [if_neg hneg, abs_of_nonneg (not_lt.1 hneg), add_zero, hzero, BitVec.xor_zero]

/-- SIGN's three words (R151). -/
theorem word_sgn_mul_one (a : Int) : word (sgn a * 65536) =
    if a < 0 then 0xFFFF0000#32 else if a = 0 then 0#32 else 0x00010000#32 := by
  rw [sgn]
  split
  · decide
  · split <;> decide

/-- Settles O43: the absolute value fits but for MINVALUE, whose word is its own. -/
theorem absAndSign : Obligations.AbsAndSign := by
  refine fun rd rs1 s => ⟨encode_eq_spelled _, encode_eq_spelled _,
    ⟨_, State.put_puts (absWord_eq (s.fits32_operand rs1)), fun hmin => ?_, fun hne => ?_⟩,
    State.put_puts (word_sgn_mul_one _)⟩
  · rw [State.operand_def, hmin]
    decide
  · have hop : s.operand rs1 ≠ -2147483648 := fun h => hne ((s.reg_eq_iff rs1 _).2 h)
    obtain ⟨hlow, hhigh⟩ := s.operand_range rs1
    have habs : |s.operand rs1| ≤ 2147483647 := abs_le.2 ⟨by omega, hhigh⟩
    have hnonneg := abs_nonneg (s.operand rs1)
    exact s32_word _ (fits32_of (by omega) habs)

/-! ### Floor and ceiling (R152-R154) -/

/-- CEIL is the range check of the ceiling `-(-a / 65536)`, which fits up to the last integral value (R153). -/
theorem fxCEIL_eq {a : Int} (ha : fits32 a) :
    fxCEIL a = if a ≤ 0x7FFF0000 then .ok (-(-a / 65536) * 65536) else .error .overflow := by
  obtain ⟨hlow, hhigh⟩ := of_fits32 ha
  have hfloor : asr a 16 = a / 65536 := by norm_num [asr]
  rw [fxCEIL, hfloor]
  by_cases hfraction : a - a / 65536 * 65536 = 0
  · have hceil : -(-a / 65536) * 65536 = a := by omega
    rw [if_neg (not_not.2 hfraction), if_pos (by omega), hceil]
  · have hceil : a / 65536 * 65536 + 65536 = -(-a / 65536) * 65536 := by omega
    have hfits : fits32 (-(-a / 65536) * 65536) ↔ a ≤ 0x7FFF0000 :=
      ⟨fun h => by have := (of_fits32 h).2; omega, fun h => fits32_of (by omega) (by omega)⟩
    rw [if_pos hfraction, fxADD_eq (fits32_of (by omega) (by omega)) (by decide), hceil]
    simp only [hfits]

/-- Settles O44: FLOOR is the word of the floor, CEIL the range check of the ceiling. -/
theorem floorAndCeil : Obligations.FloorAndCeil := by
  intro rd rs1 s
  have hceil := encode_eq_spelled (.ceil rd rs1)
  obtain ⟨hlow, hhigh⟩ := s.operand_range rs1
  obtain ⟨ceilPuts, ceilLatches⟩ := State.commit_checked (s := s) (rd := rd) hceil (fxCEIL_eq (s.fits32_operand rs1))
  exact ⟨encode_eq_spelled _, hceil,
    ⟨s.operand rs1 / 65536, by omega, by omega, fits32_of (by omega) (by omega), State.put_puts (floorWord_eq _)⟩,
    fun h => ⟨_, by omega, by omega, fits32_of (by omega) (by omega), ceilPuts h⟩, fun h => ceilLatches h.not_ge⟩

/-! ### Rounding (R155) -/

/-- The rounded magnitude of R155 under the operand's sign, counted in ones. -/
theorem fxROUND_eq (a : Int) : fxROUND a =
    if fits32 (sgn a * asr (mag a + 0x8000) 16 * 65536) then .ok (sgn a * asr (mag a + 0x8000) 16 * 65536)
    else .error .overflow := by
  rw [mul_assoc]
  exact ite_not _ _ _

/-- The rounded value fits exactly below the half before 32768.0 (R155). -/
theorem fits32_rounded_iff {a : Int} (ha : fits32 a) :
    fits32 (sgn a * asr (mag a + 0x8000) 16 * 65536) ↔ a < 0x7FFF8000 := by
  obtain ⟨hlow, hhigh⟩ := of_fits32 ha
  rw [sgn_mul_asr]
  split
  · exact ⟨fun _ => by omega, fun _ => fits32_of (by omega) (by omega)⟩
  · exact ⟨fun h => by have := (of_fits32 h).2; omega, fun _ => fits32_of (by omega) (by omega)⟩

/-- Settles O45: rounding the magnitude half up and restoring the sign rounds to nearest, as in MUL. -/
theorem roundIsNearestAwayFromZero : Obligations.RoundIsNearestAwayFromZero := by
  intro rd rs1 s
  have hword := encode_eq_spelled (.round rd rs1)
  have hfits := fits32_rounded_iff (s.fits32_operand rs1)
  obtain ⟨roundPuts, roundLatches⟩ := State.commit_checked (s := s) (rd := rd) hword (fxROUND_eq (s.operand rs1))
  exact ⟨hword, fun h => ⟨_, isNearestAway_magnitude _, hfits.2 h, roundPuts (hfits.2 h)⟩,
    fun h => roundLatches fun hfit => (hfits.1 hfit).not_ge h⟩

/-! ### Bounds (R156-R158) -/

/-- The low bound first and the high bound second: the high bound wins where the bounds cross (R158). -/
theorem fxCLAMP_eq (x lo hi : Int) :
    fxCLAMP x lo hi = if hi < lo ∨ hi < x then hi else if x < lo then lo else x := by
  rw [fxCLAMP]
  by_cases habove : hi < lo ∨ hi < x
  · rw [if_pos habove, min_eq_right (le_max_iff.2 (habove.symm.imp le_of_lt le_of_lt))]
  · obtain ⟨hlo, hx⟩ := not_or.1 habove
    rw [if_neg habove, min_eq_left (max_le (not_lt.1 hx) (not_lt.1 hlo))]
    by_cases hbelow : x < lo
    · rw [if_pos hbelow, max_eq_right hbelow.le]
    · rw [if_neg hbelow, max_eq_left (not_lt.1 hbelow)]

/-- Settles O46: each command puts back the word of the operand it chooses. -/
theorem minMaxClamp : Obligations.MinMaxClamp := by
  intro rd rs1 rs2 rs3 s
  refine ⟨encode_eq_spelled _, encode_eq_spelled _, encode_eq_spelled _, State.put_puts ?_, State.put_puts ?_,
    State.put_puts ?_⟩
  · rw [min_def, apply_ite word, s.word_operand, s.word_operand]
  · rw [max_def, apply_ite word, s.word_operand, s.word_operand]
  · rw [fxCLAMP_eq, apply_ite word, apply_ite word, s.word_operand, s.word_operand, s.word_operand]

end Sys2Proof.Machine

/-! SUPPORT. The statement about SQRT (43_sqrt.md R170, R171). -/

namespace Sys2Proof.Machine

/-- The sign restored to the root; the sign 0 of the operand 0 costs nothing, since the root of 0 is 0 (R170). -/
theorem fxSQRT_eq (a : Int) :
    fxSQRT a = if a < 0 then -(isqrt (mag a * 2 ^ 16) : Int) else isqrt (mag a * 2 ^ 16) := by
  rw [fxSQRT, sgn]
  by_cases hneg : a < 0
  · rw [if_pos hneg, if_pos hneg, neg_one_mul]
  · rw [if_neg hneg, if_neg hneg]
    by_cases hzero : a = 0
    · have hroot : isqrt (mag 0 * 2 ^ 16) = 0 := by decide
      rw [if_pos hzero, hzero, hroot, Nat.cast_zero, mul_zero]
    · rw [if_neg hzero, one_mul]

/-- A root is below every number whose square is above its radicand. -/
theorem IsRoot.lt_of_lt_mul_self {n r b : Nat} (h : IsRoot n r) (hb : n < b * b) : r < b :=
  Nat.mul_self_lt_mul_self_iff.1 (h.1.trans_lt hb)

/-- The magnitude of MINVALUE, the largest of all, bounds the roots (R170). -/
theorem isqrt_mag_le {a : Int} (ha : fits32 a) : isqrt (mag a * 2 ^ 16) ≤ 11863283 := by
  have hmag : mag a ≤ 2147483648 := by
    obtain ⟨hlow, hhigh⟩ := of_fits32 ha
    rw [mag]
    omega
  exact Nat.le_of_lt_succ ((isRoot_isqrt _).lt_of_lt_mul_self (by omega))

/-- Settles O47: the digit-by-digit root is the exact root, and its sign is the operand's. -/
theorem sqrtIsTheExactRoot : Obligations.SqrtIsTheExactRoot := by
  intro rd rs1 s
  have hvalue := congrArg (Except.ok (ε := Cause)) (fxSQRT_eq (s.operand rs1))
  exact ⟨encode_eq_spelled _, _, isRoot_isqrt _, isqrt_mag_le (s.fits32_operand rs1),
    State.commitDom_puts (w := encode (.sqrt rd rs1)) hvalue decide_eq_true_iff.symm⟩

end Sys2Proof.Machine

/-! SUPPORT. The statements about the trigonometric engine (44_trig.md R180-R189). -/

namespace Sys2Proof.Machine

/-! ### Range reduction (R180) -/

theorem isReduced_reduce (x : Int) : IsReduced x (reduce x) := reduce_spec x

/-- A reduced angle stays one for every angle that is turns away. -/
theorem IsReduced.add_turns {x r : Int} (h : IsReduced x r) (n : Int) : IsReduced (x + n * 411774) r := by
  obtain ⟨hlow, hhigh, k, hk⟩ := h
  exact ⟨hlow, hhigh, k + n, by rw [hk]; ring⟩

/-- The interval is symmetric but for its upper end PI, whose negation is not in it. -/
theorem IsReduced.neg {x r : Int} (h : IsReduced x r) (hr : r ≠ 205887) : IsReduced (-x) (-r) := by
  obtain ⟨hlow, hhigh, k, hk⟩ := h
  exact ⟨by omega, by omega, -k, by rw [hk]; ring⟩

theorem reduce_add_turn (x : Int) : reduce (x + 411774) = reduce x :=
  (reduce_unique ((isReduced_reduce x).add_turns 1)).symm

theorem reduce_neg {x : Int} (h : ¬IsReduced x 205887) : reduce (-x) = -reduce x :=
  (reduce_unique ((isReduced_reduce x).neg fun hpi => h (hpi ▸ isReduced_reduce x))).symm

/-- Settles O48: what the reduction computes is a reduced angle, and there is no other. -/
theorem rangeReductionIsUnique : Obligations.RangeReductionIsUnique := fun x _ =>
  ⟨reduce_unique, fun h => h ▸ isReduced_reduce x⟩

/-! ### The sine kernel (R181) -/

@[simp] theorem sinKernel_zero : sinKernel 0 = 0 := rfl

/-- Law K4: the free part at the quarter turn counts from ONE less SIN_EPS. -/
theorem sinKernel_quarter : |sinKernel 102943 - 65536| ≤ 3 := by
  have hvalue : sinKernel 102943 = 65533 + (Config.sinQuarterRaw.val : Int) := rfl
  have hraw := Config.sinQuarterRaw.isLt
  rw [hvalue, abs_le]
  omega

/-- Law K3. -/
theorem abs_sinKernel_le (r : Int) : |sinKernel r| ≤ 65539 := abs_le.2 (sinKernel_bound r)

theorem fits32_sinKernel (r : Int) : fits32 (sinKernel r) := by
  obtain ⟨hlow, hhigh⟩ := sinKernel_bound r
  exact fits32_of (by omega) (by omega)

/-- Settles O49: oddness and the bounds hold at every integer, so on the domain (-PI, PI]. -/
theorem sinKernelMeetsItsLaws : Obligations.SinKernelMeetsItsLaws :=
  ⟨fun r _ _ => sinKernel_neg r, sinKernel_zero, fun r _ _ => sinKernel_bound r, sinKernel_quarter⟩

/-! ### Sine and cosine (R182, R183) -/

theorem fxSIN_zero : fxSIN 0 = 0 := by
  have hreduce : reduce 0 = 0 := by decide
  rw [fxSIN, hreduce, sinKernel_zero]

theorem fxSIN_add_turn (x : Int) : fxSIN (x + 411774) = fxSIN x := by
  rw [fxSIN, reduce_add_turn, fxSIN]

theorem fxSIN_neg {x : Int} (h : ¬IsReduced x 205887) : fxSIN (-x) = -fxSIN x := by
  rw [fxSIN, reduce_neg h, sinKernel_neg, fxSIN]

theorem s32_word_fxSIN (x : Int) : s32 (word (fxSIN x)) = fxSIN x := s32_word _ (fits32_sinKernel _)

/-- The register that SIN has written. -/
theorem reg_of_exec_sin {rd rs1 : Reg} {s t : State} (h : exec (.sin rd rs1) s = .next t) :
    t.reg rd = word (fxSIN (s.operand rs1)) := by
  cases h
  exact State.reg_setReg_same _ _ _

/-- Settles O50: both commands put the kernel's value at what the reduction computes. -/
theorem sinAndCos : Obligations.SinAndCos := fun _ _ _ =>
  ⟨encode_eq_spelled _, encode_eq_spelled _, ⟨_, isReduced_reduce _, abs_sinKernel_le _, State.put_puts rfl⟩,
    ⟨_, isReduced_reduce _, abs_sinKernel_le _, State.put_puts rfl⟩⟩

/-- Settles O51: the three laws of the sine carry over to the register, since the sine and its negation fit. -/
theorem sinIsPeriodicAndOdd : Obligations.SinIsPeriodicAndOdd := by
  intro rd rs1 s s' t t' h h'
  rw [reg_of_exec_sin h, reg_of_exec_sin h']
  refine ⟨fun hzero => ?_, fun hturn => ?_, fun hneg hpi => ?_⟩
  · rw [hzero, fxSIN_zero]
    rfl
  · rw [hturn, fxSIN_add_turn]
  · rw [hneg, s32_word_fxSIN, s32_word_fxSIN, fxSIN_neg hpi]

/-! ### Tangent (R184) -/

theorem fxSDIV_zero_left (b : Int) : fxSDIV 0 b = 0 := by
  by_cases hb : b = 0
  · rw [fxSDIV, if_pos hb]
    rfl
  · have hquotient : tdiv (0 * 2 ^ 16) b = 0 := by rw [zero_mul, tdiv, Int.zero_tdiv]
    have hzero : fits32 0 := by decide
    obtain ⟨inside, -⟩ := fxSDIV_cases 0 b hb
    rw [hquotient] at inside
    exact inside hzero

/-- The clamp of R108: a quotient that does not fit becomes the bound on its side. -/
theorem word_fxSDIV_nonzero {a b : Int} (hb : b ≠ 0) : word (fxSDIV a b) =
    if fits32 (tdiv (a * 2 ^ 16) b) then word (tdiv (a * 2 ^ 16) b)
    else if 0 < tdiv (a * 2 ^ 16) b then 0x7FFFFFFF#32 else 0x80000000#32 := by
  obtain ⟨inside, above, below⟩ := fxSDIV_cases a b hb
  obtain ⟨wordMax, wordMin, -⟩ := word_ends
  generalize tdiv (a * 2 ^ 16) b = q at *
  by_cases hfits : fits32 q
  · rw [if_pos hfits, inside hfits]
  · rw [if_neg hfits]
    by_cases hpos : 0 < q
    · rw [if_pos hpos, above (by omega), wordMax]
    · rw [if_neg hpos, below (by omega), wordMin]

/-- Settles O52: the saturating quotient of the kernel's values at the two reduced angles. -/
theorem tanIsTheSaturatingQuotient : Obligations.TanIsTheSaturatingQuotient := by
  refine fun rd rs1 s => ⟨encode_eq_spelled _, reduce (s.operand rs1), reduce (s.operand rs1 + 102943),
    isReduced_reduce _, isReduced_reduce _, fun hzero => State.put_puts ?_, fun hcos => State.put_puts (fxSDIV_zero hcos),
    fun hcos => ⟨_, _, isTruncatedDivision_tdiv _ _ hcos, State.put_puts (word_fxSDIV_nonzero hcos)⟩⟩
  rw [fxTAN, hzero, fxSIN_zero, fxSDIV_zero_left]
  rfl

/-! ### Arctangents (R186-R189) -/

/-- Settles O53: the laws A1 and A2 as the kernel is built, and the command puts its value. -/
theorem atanMeetsItsLaws : Obligations.AtanMeetsItsLaws := by
  refine ⟨fun z _ => ?_, rfl, fun z hz hmin => ?_, fun _ _ _ => ⟨encode_eq_spelled _, State.put_puts rfl⟩⟩
  · obtain ⟨hlow, hhigh⟩ := atanFn_range z
    exact fits32_of hlow hhigh
  · obtain ⟨hlow, hhigh⟩ := of_fits32 hz
    exact atanFn_neg (by omega) (by omega)

theorem atan2Fn_range (y x : Int) : -2147483648 ≤ atan2Fn y x ∧ atan2Fn y x ≤ 2147483647 := by
  have hraw := (Config.atan2Raw (mag y) x).isLt
  unfold atan2Fn
  split
  · exact s32_range _
  · split
    · exact s32_range _
    · simp only [maxValue]
      split <;> omega

/-- Law T1: away from 0 and MINVALUE the free part depends on the magnitude of y only. -/
theorem atan2Fn_neg {y : Int} (x : Int) (hzero : y ≠ 0) (hmin : y ≠ -2147483648) (hmin' : -y ≠ -2147483648) :
    atan2Fn (-y) x = -atan2Fn y x := by
  unfold atan2Fn
  rw [if_neg hmin', if_neg hmin, if_neg (neg_ne_zero.2 hzero), if_neg hzero, mag_neg]
  by_cases hneg : y < 0
  · rw [if_neg (by omega), if_pos hneg, neg_neg]
  · rw [if_pos (by omega), if_neg hneg]

/-- Settles O54: the law T1 as the kernel is built, and the command puts its value. -/
theorem atan2MeetsItsLaws : Obligations.Atan2MeetsItsLaws := by
  refine ⟨fun y x _ _ => ?_, fun y x hy _ hzero hmin => ?_, fun _ _ _ _ => ⟨encode_eq_spelled _, State.put_puts rfl⟩⟩
  · obtain ⟨hlow, hhigh⟩ := atan2Fn_range y x
    exact fits32_of hlow hhigh
  · obtain ⟨hlow, hhigh⟩ := of_fits32 hy
    exact atan2Fn_neg x hzero (by omega) (by omega)

end Sys2Proof.Machine

/-! SUPPORT. The statements about the inverse-trigonometric unit (45_invtrig.md R200-R203). -/

namespace Sys2Proof.Machine

/-! ### The arcsine (R200, R201) -/

theorem fxASIN_one : fxASIN 65536 = .ok 102943 := rfl

theorem fxASIN_neg_one : fxASIN (-65536) = .ok (-102943) := rfl

theorem fxASIN_zero : fxASIN 0 = .ok 0 := rfl

/-- The largest dividend by the smallest root bounds the quotient (R201). -/
theorem abs_asin_quotient_le {x : Int} {root : Nat} (hlow : -65536 < x) (hhigh : x < 65536) (hroot : 362 ≤ root) :
    |tdiv (x * 65536) root| ≤ 11864369 := by
  have hdividend : (x * 65536).natAbs ≤ 4294901760 := by omega
  have hquotient := Nat.div_le_div hdividend hroot (by decide)
  rw [Int.abs_eq_natAbs, tdiv, Int.natAbs_tdiv, Int.natAbs_natCast]
  exact_mod_cast hquotient

/-- Every value of the arcsine, by where its operand lies (R200, R202). -/
theorem fxASIN_cases {x v : Int} (h : fxASIN x = .ok v) :
    ((x > 65536 ∨ x < -65536) ∧ v = 0) ∨ (x = 65536 ∧ v = 102943) ∨ (x = -65536 ∧ v = -102943) ∨
      ((-65536 < x ∧ x < 65536) ∧ ∃ q, v = atanFn q) := by
  obtain houtside | rfl | rfl | ⟨hlow, hhigh⟩ :
      (x > 65536 ∨ x < -65536) ∨ x = 65536 ∨ x = -65536 ∨ (-65536 < x ∧ x < 65536) := by omega
  · exact .inl ⟨houtside, Except.ok.inj (h.symm.trans (fxASIN_outside houtside).2)⟩
  · exact .inr (.inl ⟨rfl, Except.ok.inj (h.symm.trans fxASIN_one)⟩)
  · exact .inr (.inr (.inl ⟨rfl, Except.ok.inj (h.symm.trans fxASIN_neg_one)⟩))
  · obtain ⟨-, -, -, q, -, -, -, -, -, -, -, -, -, hvalue⟩ := fxASIN_inside hlow hhigh
    exact .inr (.inr (.inr ⟨⟨hlow, hhigh⟩, q, Except.ok.inj (h.symm.trans hvalue)⟩))

theorem fits32_of_fxASIN {x v : Int} (h : fxASIN x = .ok v) : fits32 v := by
  obtain ⟨-, rfl⟩ | ⟨-, rfl⟩ | ⟨-, rfl⟩ | ⟨-, q, rfl⟩ := fxASIN_cases h
  · decide
  · decide
  · decide
  · obtain ⟨hlow, hhigh⟩ := atanFn_range q
    exact fits32_of hlow hhigh

/-- The negated operand has the same square, so the same root, and the negated quotient, which law A1 serves (R200). -/
theorem fxASIN_neg_inside {x : Int} (hlow : -65536 < x) (hhigh : x < 65536) :
    ∃ q, fxASIN x = .ok (atanFn q) ∧ fxASIN (-x) = .ok (-atanFn q) := by
  obtain ⟨t, _, _, _, hmul, -, rfl, -, -, rfl, hroot, rfl, -, hvalue⟩ := fxASIN_inside hlow hhigh
  obtain ⟨t', _, _, _, hmul', -, rfl, -, -, rfl, -, rfl, -, hvalue'⟩ :=
    fxASIN_inside (x := -x) (by omega) (by omega)
  have hsquare : t' = t := Except.ok.inj (hmul'.symm.trans ((fxMUL_comm_neg x x).trans hmul))
  have hbound := abs_le.1 (abs_asin_quotient_le hlow hhigh (by exact_mod_cast hroot))
  rw [hsquare, neg_mul, tdiv_neg, atanFn_neg (by omega) (by omega)] at hvalue'
  exact ⟨_, hvalue, hvalue'⟩

theorem fxASIN_neg {x v : Int} (h : fxASIN x = .ok v) : fxASIN (-x) = .ok (-v) := by
  obtain ⟨houtside, rfl⟩ | ⟨rfl, rfl⟩ | ⟨rfl, rfl⟩ | ⟨⟨hlow, hhigh⟩, -⟩ := fxASIN_cases h
  · exact (fxASIN_outside (by omega)).2
  · exact fxASIN_neg_one
  · exact fxASIN_one
  · obtain ⟨q, hvalue, hneg⟩ := fxASIN_neg_inside hlow hhigh
    rw [Except.ok.inj (h.symm.trans hvalue), hneg]

/-! ### ASIN (R200) -/

theorem exec_asin_putsDom {rd rs1 : Reg} {s : State} {v : Int} {P : Prop} (h : fxASIN (s.operand rs1) = .ok v)
    (hP : P ↔ s.operand rs1 > 65536 ∨ s.operand rs1 < -65536) : PutsDom (exec (.asin rd rs1) s) s rd (word v) P :=
  State.commitDom_puts (w := encode (.asin rd rs1)) h (hP.trans (outsideOne_iff _))

/-- The destination of ASIN reads back as the arcsine, since that fits. -/
theorem fxASIN_of_exec_asin {rd rs1 : Reg} {s t : State} (h : exec (.asin rd rs1) s = .next t) :
    fxASIN (s.operand rs1) = .ok (t.operand rd) := by
  obtain ⟨v, hvalue⟩ := fxASIN_ok (s.operand rs1)
  obtain ⟨u, hnext, hreg, -⟩ := exec_asin_putsDom (rd := rd) hvalue Iff.rfl
  obtain rfl : u = t := by injection hnext.symm.trans h
  rw [hvalue, State.operand_def, hreg, s32_word v (fits32_of_fxASIN hvalue)]

/-- Settles O55, by where the operand lies; inside, the steps of R200 are those of the rules it names. -/
theorem asinIsTheComposition : Obligations.AsinIsTheComposition := by
  intro rd rs1 s
  refine ⟨encode_eq_spelled _, fun houtside => ?_, fun hone => ?_, fun hone => ?_, fun ⟨hlow, hhigh⟩ => ?_⟩
  · exact exec_asin_putsDom (fxASIN_outside houtside).2 (iff_of_true trivial houtside)
  · exact exec_asin_putsDom (hone ▸ fxASIN_one) (iff_of_false id (by omega))
  · exact exec_asin_putsDom (hone ▸ fxASIN_neg_one) (iff_of_false id (by omega))
  · obtain ⟨t, _, _, _, -, hsquare, rfl, hmin, hmax, rfl, hroot, rfl, -, hvalue⟩ := fxASIN_inside hlow hhigh
    have hroot : 362 ≤ isqrt ((65536 - t).toNat * 65536) := by exact_mod_cast hroot
    exact ⟨t, _, _, _, hsquare, hmin, hmax, isRoot_isqrt ((65536 - t).toNat * 65536), hroot,
      isTruncatedDivision_tdiv _ _ (by omega), abs_asin_quotient_le hlow hhigh hroot,
      exec_asin_putsDom hvalue (iff_of_false id (by omega))⟩

/-- Settles O56: the arcsine is odd, and each destination reads back as the arcsine of its operand. -/
theorem asinIsOdd : Obligations.AsinIsOdd := by
  intro rd rs1 s s' t t' h h' hneg
  have hvalue := fxASIN_of_exec_asin h'
  rw [hneg, fxASIN_neg (fxASIN_of_exec_asin h)] at hvalue
  exact (Except.ok.inj hvalue).symm

/-! ### ACOS (R203) -/

/-- As `State.commit_checked`, for a command that records DOM where it completes (60_exceptions.md R212). -/
theorem State.commitDom_checked {s : State} {w w' : Word} {rd : Reg} {r : Fx} {v : Int} {c : Cause} {outside : Bool}
    {P passes : Prop} [Decidable passes] (hw : w = w') (hP : P ↔ outside = true)
    (hr : r = if passes then .ok v else .error c) :
    (passes → PutsDom (s.commitDom w rd outside r) s rd (word v) P) ∧
      (¬passes → Latches (s.commitDom w rd outside r) s c w') :=
  ⟨fun h => State.commitDom_puts (hr.trans (if_pos h)) hP, fun h => State.commitDom_latches (hr.trans (if_neg h)) hw⟩

theorem fxACOS_eq {x v : Int} (h : fxASIN x = .ok v) :
    fxACOS x = if fits32 (102943 - v) then .ok (102943 - v) else .error .overflow := by
  rw [fxACOS, h]
  exact fxSUB_eq (a := piOver2) (by decide) (fits32_of_fxASIN h)

/-- The operands whose arcsine the spec fixes leave a difference that fits (R203). -/
theorem fits32_acos {x v : Int} (h : fxASIN x = .ok v) (hx : x ≤ -65536 ∨ 65536 ≤ x ∨ x = 0) :
    fits32 (102943 - v) := by
  obtain ⟨-, rfl⟩ | ⟨-, rfl⟩ | ⟨-, rfl⟩ | ⟨hinside, -⟩ := fxASIN_cases h
  · decide
  · decide
  · decide
  · obtain rfl : x = 0 := by omega
    obtain rfl : 0 = v := Except.ok.inj (fxASIN_zero.symm.trans h)
    decide

/-- Settles O57: the checked difference from the value that ASIN's destination reads back. -/
theorem acosIsPiOver2LessAsin : Obligations.AcosIsPiOver2LessAsin := by
  intro rd rs1 s
  have hword := encode_eq_spelled (.acos rd rs1)
  obtain ⟨t, hnext, -⟩ := exec_effect (.asin rd rs1) s
  have hvalue := fxASIN_of_exec_asin hnext
  obtain ⟨acosPuts, acosLatches⟩ :=
    State.commitDom_checked (s := s) (rd := rd) hword (outsideOne_iff _) (fxACOS_eq hvalue)
  refine ⟨hword, t, hnext, ?_, fun hx => acosPuts (fits32_acos hvalue hx)⟩
  split
  · next hfits => exact acosPuts hfits
  · next hfits => exact acosLatches hfits

end Sys2Proof.Machine

/-! SUPPORT. The statements about faults (60_exceptions.md R210-R216, R220): what a command may change, what it may latch,
and how long the latch stays. -/

namespace Sys2Proof.Machine

/-! ### The two outcomes of a command (R210-R212) -/

/-- Settles O22, by the four effects of a command. -/
theorem commandCompletesOrLatchesAFault : Obligations.CommandCompletesOrLatchesAFault := by
  intro i s
  obtain ⟨t, hnext, heffect⟩ := exec_effect i s
  refine ⟨t, hnext, ?_⟩
  cases heffect with
  | faulted c ht _ =>
    rw [ht]
    exact .inl ⟨c, latches_takeFault s c _⟩
  | wrote d v outside hd ht ho =>
    subst ht
    have hbits : ∀ k, k ≠ 4 → ((s.setReg d v).raiseFlag .dom outside).status.getLsbD k = s.status.getLsbD k :=
      State.getLsbD_raiseDom (s.setReg d v) outside
    refine .inr ⟨fun r hr => ?_, fun k hk _ _ _ => hbits k hk, fun _ => hbits, fun hdom => ?_, by
      simp [SameControl, SamePort]⟩
    · have hne : r ≠ d := fun e => hr (e ▸ hd)
      rw [State.reg_raiseFlag, State.reg_setReg_ne s v hne]
    · cases outside with
      | false => rfl
      | true => simp [hdom] at ho
  | compared hc _ o ht =>
    subst ht
    refine .inr ⟨fun r _ => State.reg_setCompare s o r, fun k _ h8 h9 h10 => ?_, fun hcmp => ?_, fun _ => ?_,
      rfl, rfl, rfl, rfl, rfl, rfl⟩
    · rw [State.getLsbD_setCompare, if_neg h10, if_neg h9, if_neg h8]
    · simp [hc] at hcmp
    · exact State.getLsbD_setCompare s o 4
  | idle _ ht =>
    subst ht
    exact .inr ⟨fun _ _ => rfl, fun _ _ _ _ _ => rfl, fun _ _ _ => rfl, fun _ => rfl, rfl, rfl, rfl, rfl, rfl, rfl⟩

/-- Settles O23: of the four effects of a command only the fault raises FAULT, and it is one of the command's row. -/
theorem faultsFollowTheCauseTable : Obligations.FaultsFollowTheCauseTable := by
  intro i s t hfree hnext hfault
  cases effect_of_exec hnext with
  | faulted c ht hc =>
    rw [ht]
    obtain ⟨rfl, hrow⟩ | ⟨rfl, hrow⟩ := hc
    · exact ⟨rfl, .inl ⟨rfl, hrow⟩⟩
    · exact ⟨rfl, .inr ⟨rfl, hrow⟩⟩
  | wrote d v outside _ ht _ => simp [ht, State.flag_raiseFlag, hfree] at hfault
  | compared _ _ o ht => simp [ht, State.flag_setCompare, hfree] at hfault
  | idle _ ht => simp [ht, hfree] at hfault

/-! ### Equal sources, equal outcomes (R211) -/

theorem destinationOf_eq_none_iff (i : Instr) :
    destinationOf i = none ↔ i = .nop ∨ ∃ rs1 rs2, i = .cmp rs1 rs2 := by
  cases i <;> simp [destinationOf]

theorem isCmp_of_destination {i : Instr} {d : Reg} (h : destinationOf i = some d) : isCmp i = false := by
  by_contra hcmp
  have hnone : destinationOf i = none :=
    (destinationOf_eq_none_iff i).2 (.inr ((isCmp_iff i).1 (by simpa using hcmp)))
  rw [hnone] at h
  cases h

theorem exec_sqrt (d a : Reg) (s : State) : exec (.sqrt d a) s =
    s.commitDom (encode (.sqrt d a)) d (decide (s.operand a < 0)) (.ok (fxSQRT (s.operand a))) :=
  rfl

/-- A command with a destination ends alike on equal sources, by the commit it makes: checked, with a domain record, or
plain. -/
theorem agree_exec {i : Instr} {s s' t t' : State} {d : Reg} (hd : destinationOf i = some d)
    (hf : s.flag .fault = false) (hf' : s'.flag .fault = false) (hreg : ∀ r ∈ sourcesOf i, s.reg r = s'.reg r)
    (h : exec i s = .next t) (h' : exec i s' = .next t') : Agree s s' t t' d := by
  cases i with
  | nop | cmp => cases hd
  | add | sub | mul | div | mod | inc | dec | itox | ftox | ceil | round =>
    cases hd
    simp only [sourcesOf, List.forall_mem_cons] at hreg
    exact agree_commit hf hf' h h' (by simp only [State.operand_def, hreg])
  | sqrt _ a =>
    cases hd
    have hoperand : s.operand a = s'.operand a := congrArg s32 (hreg a (.head _))
    rw [exec_sqrt] at h h'
    exact agree_commitDom hf hf' h h' (by rw [hoperand]) (by rw [hoperand])
  | asin _ a | acos _ a =>
    cases hd
    have hoperand : s.operand a = s'.operand a := congrArg s32 (hreg a (.head _))
    exact agree_commitDom hf hf' h h' (by rw [hoperand]) (by rw [hoperand])
  | _ =>
    cases hd
    simp only [sourcesOf, List.forall_mem_cons] at hreg
    exact agree_put hf hf' h h' (by simp only [State.operand_def, hreg])

/-- Settles O27: NOP keeps every flag, CMP sets its three by the order of its operands, and every other command has a
destination. -/
theorem outcomeDependsOnTheSourcesAlone : Obligations.OutcomeDependsOnTheSourcesAlone := by
  intro i s s' t t' hf hf' hreg h h'
  cases hd : destinationOf i with
  | some d =>
    obtain ⟨hfault, hcause, hword, hdom⟩ := agree_exec hd hf hf' hreg h h'
    refine ⟨hfault, hcause, fun hfree e he => ?_, fun hcmp => ?_, hdom⟩
    · exact Option.some.inj he ▸ hword hfree
    · simp [isCmp_of_destination hd] at hcmp
  | none =>
    obtain rfl | ⟨rs1, rs2, rfl⟩ := (destinationOf_eq_none_iff i).1 hd
    · cases h
      cases h'
      simp [hf, hf', isCmp]
    · have horder : fxCMP (s.operand rs1) (s.operand rs2) = fxCMP (s'.operand rs1) (s'.operand rs2) := by
        rw [State.operand_def, State.operand_def, hreg rs1 (.head _), hreg rs2 (.tail _ (.head _))]
        rfl
      cases h
      cases h'
      rw [horder]
      refine ⟨by simp [State.flag_setCompare, hf, hf'], fun hfault => ?_, fun _ _ he => ?_, fun _ b hb => ?_,
        false, by simp [State.flag_setCompare]⟩
      · simp [State.flag_setCompare, hf] at hfault
      · cases he
      · rw [State.flag_setCompare, State.flag_setCompare]
        rcases hb with rfl | rfl | rfl <;> rfl

/-! ### The latch until it is cleared (R214-R216) -/

/-- A STATUS write clears the bits 0 to 5 written 1 and no other (10_state.md R26). -/
theorem State.flag_writeStatus (s : State) (w : Word) (b : StatusBit) :
    (s.writeStatus w).flag b = (s.flag b && !(decide (b.pos < 6) && w.getLsbD b.pos)) :=
  s.getLsbD_writeStatus w b.pos

theorem State.flag_fault_writeStatus (s : State) (w : Word) :
    (s.writeStatus w).flag .fault = (s.flag .fault && !w.getLsbD 0) :=
  s.flag_writeStatus w .fault

theorem State.flag_resetInput (s : State) (b : StatusBit) : s.resetInput.flag b = false :=
  BitVec.getLsbD_zero

theorem writeCommand_of_latched (w : Word) {s : State} (hf : s.flag .fault = true) :
    writeCommand w s = .next (s.setFlag .drop true) :=
  if_pos hf

theorem writeCommand_of_unlatched (w : Word) {s : State} (hf : s.flag .fault = false) :
    writeCommand w s = execute w s :=
  if_neg (by simp [hf])

theorem State.status_setDrop (s : State) : (s.setFlag .drop true).status = s.status ||| 0x00000020#32 := rfl

/-- FAULT, CAUSE and FAULTCMD still describe the fault that `s` has latched. -/
def KeepsLatch (s t : State) : Prop :=
  t.flag .fault = true ∧ t.cause = s.cause ∧ t.faultcmd = s.faultcmd

/-- While a fault is latched a register write keeps the latch, but for a STATUS write with bit 0 set, which ends it. -/
theorem writeRegister_of_latched {r : WindowRegister} {w : Word} {s t : State} (hf : s.flag .fault = true)
    (ht : writeRegister r w s = .next t) :
    KeepsLatch s t ∨ (t.flag .fault = false ∧ r = .status ∧ w.getLsbD 0 = true) := by
  cases r with
  | cmd =>
    cases (writeCommand_of_latched w hf).symm.trans ht
    exact .inl ⟨(s.flag_setFlag .drop .fault true).trans hf, rfl, rfl⟩
  | status =>
    cases ht
    cases h0 : w.getLsbD 0 with
    | true => exact .inr ⟨by simp [State.flag_fault_writeStatus, h0], rfl, rfl⟩
    | false =>
      refine .inl ⟨?_, ?_, ?_⟩
      · rw [State.flag_fault_writeStatus, hf, h0]
        rfl
      · rw [State.cause_writeStatus, h0]
        rfl
      · rw [State.faultcmd_writeStatus, h0]
        rfl
  | data i => cases ht; exact .inl ⟨hf, rfl, rfl⟩
  | cause => cases ht; exact .inl ⟨hf, rfl, rfl⟩
  | faultcmd => cases ht; exact .inl ⟨hf, rfl, rfl⟩
  | ctrl => cases ht; exact .inl ⟨hf, rfl, rfl⟩

/-- A 32-bit write that reaches STATUS, as the host spells it (20_memory.md R52). -/
theorem eq_statusWrite_of_target {a : Access} {w : Word} (hr : a.target = some .status) (ho : a.op = .write w) :
    a = ⟨.word, 0x44#8, .write w⟩ := by
  obtain ⟨hwidth, hoffset⟩ := target_status hr
  cases a
  simp_all

/-- While a fault is latched a step keeps the latch, but for a reset or a STATUS write with bit 0 set, which end it. -/
theorem step_of_latched {s t : State} (hf : s.flag .fault = true) (hstep : step s = .next t) :
    KeepsLatch s t ∨ (t.flag .fault = false ∧ (s.inputs.head? = some .reset ∨
      ∃ w : Word, s.inputs.head? = some (.access ⟨.word, 0x44#8, .write w⟩) ∧ w.getLsbD 0 = true)) := by
  cases step_effect hstep with
  | idle _ ht => rw [ht]; exact .inl ⟨hf, rfl, rfl⟩
  | reset rest hin ht => rw [ht, hin]; exact .inr ⟨State.flag_resetInput _ .fault, .inl rfl⟩
  | read a rest w _ _ ht => rw [ht]; exact .inl ⟨hf, rfl, rfl⟩
  | write a rest r w u hin hr ho hu ht =>
    rw [ht, hin]
    obtain hkept | ⟨hfree, rfl, h0⟩ := writeRegister_of_latched (s := { s with inputs := rest }) hf hu
    · exact .inl hkept
    · exact .inr ⟨hfree, .inr ⟨w, congrArg (some ∘ Input.access) (eq_statusWrite_of_target hr ho), h0⟩⟩

/-- Settles O25: a step that leaves FAULT set has kept the latch. -/
theorem latchedFaultIsKeptUntilCleared : Obligations.LatchedFaultIsKeptUntilCleared := by
  intro s t hf hstep hfault
  obtain ⟨-, hcause, hfaultcmd⟩ | ⟨hfree, -⟩ := step_of_latched hf hstep
  · exact ⟨hcause, hfaultcmd⟩
  · simp [hfree] at hfault

/-- Settles O26: a step that has cleared FAULT is a reset or a STATUS write, and the latter keeps what it does not clear. -/
theorem statusWriteEndsTheFaultState : Obligations.StatusWriteEndsTheFaultState := by
  refine ⟨fun s t hf hstep hfree => ?_, fun s w v h0 => ?_⟩
  · obtain ⟨hfault, -⟩ | ⟨-, hinput⟩ := step_of_latched hf hstep
    · simp [hfree] at hfault
    · exact hinput
  · have hfree : (s.writeStatus w).flag .fault = false := by simp [State.flag_fault_writeStatus, h0]
    refine ⟨hfree, ?_, ?_, fun b _ hb => ?_, writeCommand_of_unlatched v hfree⟩
    · rw [State.cause_writeStatus, if_pos h0]
    · rw [State.faultcmd_writeStatus, if_pos h0]
    · simp [State.flag_writeStatus, hb]

/-- Settles O8: the port sets DROP and runs nothing. -/
theorem commandIsDiscardedWhileAFaultIsLatched : Obligations.CommandIsDiscardedWhileAFaultIsLatched := by
  intro s w rest h hf
  exact ⟨_, step_command h (writeCommand_of_latched w hf), fun _ => rfl, s.status_setDrop, rfl, rfl, rfl, rfl, rfl, rfl⟩

/-! ### The interrupt output (R220) -/

theorem flag_fault_of_status_latched {s t : State} {c : Cause} (h : t.status = s.status ||| latchBits c) :
    t.flag .fault = true := by
  have hbit : (latchBits c).getLsbD 0 = true := by cases c <;> rfl
  rw [State.flag, h, BitVec.getLsbD_or]
  exact Bool.or_eq_true_iff.2 (.inr hbit)

/-- Settles O14, by FAULT after the entry of a fault and after a STATUS write, and IRQEN after a CTRL write. -/
theorem irqFollowsFaultAndEnable : Obligations.IrqFollowsFaultAndEnable := by
  refine ⟨fun _ => rfl, fun r s t c w hr hlatched => ?_, fun s w h0 => ?_, fun s w h0 => ?_⟩
  · obtain ⟨u, hu, -, hstatus, -, -, hirqen, -⟩ := hlatched
    obtain rfl : u = t := by injection hu.symm.trans hr
    rw [State.irq, flag_fault_of_status_latched hstatus, hirqen, Bool.true_and]
  · simp [State.irq, State.flag_fault_writeStatus, h0]
  · rw [State.irq, State.writeCtrl_irqen, h0, Bool.and_false]

end Sys2Proof.Machine

/-! SUPPORT. The statement about the reset (70_reset_and_hazards.md R240). -/

namespace Sys2Proof.Machine

/-- CTRL holds IRQEN alone (10_state.md R29). -/
theorem State.ctrlWord_of_disabled {s : State} (h : s.irqen = false) : s.ctrlWord = 0#32 := by
  simp [State.ctrlWord, h]

theorem State.irq_of_disabled {s : State} (h : s.irqen = false) : s.irq = false := by
  simp [State.irq, h]

/-- Settles O19: `State.reset` and `State.resetInput` clear STATUS, CAUSE, FAULTCMD and IRQEN, and CTRL and irq follow
IRQEN. -/
theorem resetClearsTheControlState : Obligations.ResetClearsTheControlState := by
  refine ⟨⟨rfl, rfl, rfl, State.ctrlWord_of_disabled rfl, State.irq_of_disabled rfl⟩, fun s rest hin => ?_⟩
  exact ⟨_, step_reset hin, rfl, rfl, rfl, State.ctrlWord_of_disabled rfl, State.irq_of_disabled rfl, rfl⟩

end Sys2Proof.Machine
